-- ==== Sys2Proof/Word.lean ====
section
/-! DEFINITION. The widths of the values the block handles (00_scope.md R7, R17). -/

namespace Sys2Proof

/-- One location of the register bus: 8 bits (R42). -/
abbrev Byte := BitVec 8

/-- A command word, CMD[15:0] (R61). -/
abbrev CmdWord := BitVec 16

/-- A divider code, which is also the width of SCALE: 3 bits (R21, R102). -/
abbrev Code := BitVec 3

/-- MSRAW and the MSREAD result: P_MS_WIDTH = 32 bits, unsigned (R29, R122). -/
abbrev MsWord := BitVec 32

end Sys2Proof
end

