-- ==== Sys2Proof/Config.lean ====
section
/-! DEFINITION. The parameters that an implementation fixes (00_scope.md R8) and the free values of the model. -/

namespace Sys2Proof

/-- P_RD_WIDTH, the width of the RD result: 8, or the alternative 16 (R8, R85). -/
inductive RdWidth where
  | w8
  | w16
deriving DecidableEq, Repr

/-- The implementation parameters of R8 that R8 leaves OPEN or gives an alternative. They are plain data in State, so a
statement about every state holds for every choice of them; no step changes them. P_MS_WIDTH and P_SCALE_FALLBACK have
one value in R8 and are the type `MsWord` and the function `Machine.scaleFallback`. -/
structure Params where
  /-- P_ADDR_WIDTH, the width of a register-bus address (OPEN). -/
  addrWidth : Nat
  /-- P_ADDR_OUT_B -/
  addrOutB : Nat
  /-- P_ADDR_OUT_C -/
  addrOutC : Nat
  /-- P_ADDR_OUT_D -/
  addrOutD : Nat
  /-- P_ADDR_IN_B -/
  addrInB : Nat
  /-- P_ADDR_IN_C -/
  addrInC : Nat
  /-- P_ADDR_IN_D -/
  addrInD : Nat
  /-- P_ADDR_TCR_A -/
  addrTcrA : Nat
  /-- P_ADDR_TCR_B -/
  addrTcrB : Nat
  /-- P_ADDR_TCR_C -/
  addrTcrC : Nat
  /-- P_RD_WIDTH -/
  rdWidth : RdWidth
  /-- P_ATOMIC: each command is one indivisible transaction. -/
  atomic : Bool
  /-- P_LEGACY_TIMER_B: SETPWM on Timer B writes Timer A's control register. -/
  legacyTimerB : Bool
  /-- P_LOOPBACK: IN[p] reads as OUT[p]. -/
  loopback : Bool
deriving DecidableEq, Repr

/-- The addresses of the six device registers that hold a value: OUT[B], OUT[C], OUT[D], TCR[A], TCR[Timer B], TCR[C]
(R26, R28). -/
def Params.regAddrs (p : Params) : List Nat :=
  [p.addrOutB, p.addrOutC, p.addrOutD, p.addrTcrA, p.addrTcrB, p.addrTcrC]

/-- The addresses of the three input registers (R27). -/
def Params.inAddrs (p : Params) : List Nat :=
  [p.addrInB, p.addrInC, p.addrInD]

/-- The parameters of the machine that `Machine.State.reset` describes. The four switches have the values R8 gives. The
addresses and their width are OPEN; 0 to 8 in 4 bits are placeholders (DESIGN CHOICE, log entry 1). -/
def Params.default : Params where
  addrWidth := 4
  addrOutB := 0
  addrOutC := 1
  addrOutD := 2
  addrInB := 3
  addrInC := 4
  addrInD := 5
  addrTcrA := 6
  addrTcrB := 7
  addrTcrC := 8
  rdWidth := .w8
  atomic := true
  legacyTimerB := false
  loopback := false

/-- FREE VALUE: the launch value of the device register at an address (R26, R28, R51, R161; log entry 2). -/
opaque Config.launchByte : Nat → Byte

/-- FREE VALUE: the k-th draw of the pin environment after the draws that State lists (R27; log entry 4). -/
opaque Config.pinDraw : Nat → Byte

/-- FREE VALUE: the k-th sample of the tick source after the samples that State lists (R29; log entry 4). -/
opaque Config.msDraw : Nat → MsWord

end Sys2Proof
end

