-- ==== Sys2Proof/Syntax.lean ====
section
/-! DEFINITION. The commands of the block as data: one constructor for each row of spec/opcode_table.json. -/

namespace Sys2Proof

/-- Port = {B, C, D} (R14). -/
inductive Port where
  | b
  | c
  | d
deriving DecidableEq, Repr

/-- Timer = {A, Timer B, C}; Timer A is the primary timer, Timer B the secondary (R9, R14). -/
inductive Timer where
  | a
  | b
  | c
deriving DecidableEq, Repr

/-- The seven frequency classes, from the highest band to the lowest (R14). -/
inductive FreqClass where
  | hz31k
  | hz4k
  | hz1k
  | hz488
  | hz244
  | hz122
  | hz30
deriving DecidableEq, Repr

/-- A command (R71). The operand DIN of WR is not part of the command word (R63): it is on the command port. -/
inductive Instr where
  /-- `WRC p, n, v` (R83): v true clears bit n of OUT[p], v false sets it. -/
  | wrc (p : Port) (n : Nat) (v : Bool)
  /-- `WR p, n` with DIN (R84). -/
  | wr (p : Port) (n : Nat)
  /-- `RD p, n` (R85). -/
  | rd (p : Port) (n : Nat)
  /-- `SETPWM t, f` (R104). -/
  | setpwm (t : Timer) (f : FreqClass)
  /-- `MSREAD` (R120). -/
  | msread
deriving DecidableEq, Repr

/-- The decoder's four reasons, one for each group of OP values (R143). -/
inductive Illegal where
  /-- `reserved_bits_or_port`: OP 0b000 to 0b010. -/
  | reservedBitsOrPort
  /-- `reserved_bits_timer_or_freq`: OP 0b011. -/
  | reservedBitsTimerOrFreq
  /-- `reserved_bits`: OP 0b100. -/
  | reservedBits
  /-- `reserved_opcode`: OP 0b101 to 0b111. -/
  | reservedOpcode
deriving DecidableEq, Repr

/-- What decoding a word gives: a command or `Illegal(reason)` (R72). -/
inductive Decoded where
  | cmd (i : Instr)
  | illegal (r : Illegal)
deriving DecidableEq, Repr

/-- The pseudo-command `PINLOW p, n`: it drives the pin low (R76). -/
def Instr.pinLow (p : Port) (n : Nat) : Instr := .wrc p n true

/-- The pseudo-command `PINHIGH p, n`: it drives the pin high (R76). -/
def Instr.pinHigh (p : Port) (n : Nat) : Instr := .wrc p n false

end Sys2Proof
end

