-- ==== Sys2Proof/WellFormed.lean ====
section
/-! DEFINITION. The checks on a command and on a choice of parameters, as Bools. -/

namespace Sys2Proof

/-- A command is well formed when its pin index is in 0 to 7 (R7, R62, U1). The enumerations cannot be wrong. -/
def Instr.wf : Instr → Bool
  | .wrc _ n _ => decide (n < 8)
  | .wr _ n => decide (n < 8)
  | .rd _ n => decide (n < 8)
  | .setpwm _ _ => true
  | .msread => true

/-- The nine addresses of R8. -/
def Params.addrs (p : Params) : List Nat := p.regAddrs ++ p.inAddrs

/-- R8 and R10: the width is at least 1, every address fits in it, and the nine addresses are pairwise distinct. -/
def Params.wf (p : Params) : Bool :=
  decide (1 ≤ p.addrWidth) && p.addrs.all (fun a => decide (a < 2 ^ p.addrWidth)) && decide p.addrs.Nodup

end Sys2Proof
end

