-- ==== Sys2Proof/Decode.lean ====
section
/-! DEFINITION. The decoder, the encoder and the opcode map of 30_encoding.md, the byte image of R43 and the syntax of
R75. -/

namespace Sys2Proof

/-- `w[hi:lo]` as an unsigned number of hi-lo+1 bits (R11). -/
def slice (w : CmdWord) (hi lo : Nat) : Nat :=
  w.toNat / 2 ^ lo % 2 ^ (hi + 1 - lo)

/-- The PORT field codes; 0b11 is reserved (R66). -/
def portOf : Nat → Option Port
  | 0 => some .b
  | 1 => some .c
  | 2 => some .d
  | _ => none

/-- The TMR field codes; 0b11 is reserved (R67). -/
def timerOf : Nat → Option Timer
  | 0 => some .a
  | 1 => some .b
  | 2 => some .c
  | _ => none

/-- The FREQ field codes; 0b111 is reserved (R68). -/
def freqOf : Nat → Option FreqClass
  | 0 => some .hz31k
  | 1 => some .hz4k
  | 2 => some .hz1k
  | 3 => some .hz488
  | 4 => some .hz244
  | 5 => some .hz122
  | 6 => some .hz30
  | _ => none

/-- The port of a PIN-format word, when its bits that must be zero are zero (R61, R62). -/
def pinFormat (w : CmdWord) (zeroBits : Nat) (k : Port → Nat → Instr) : Decoded :=
  if zeroBits ≠ 0 then .illegal .reservedBitsOrPort
  else
    match portOf (slice w 12 11) with
    | none => .illegal .reservedBitsOrPort
    | some p => .cmd (k p (slice w 10 8))

/-- The timer and the class of a TMR-format word (R61, R64). -/
def tmrFormat (w : CmdWord) : Decoded :=
  if slice w 7 0 ≠ 0 then .illegal .reservedBitsTimerOrFreq
  else
    match timerOf (slice w 12 11), freqOf (slice w 10 8) with
    | some t, some f => .cmd (.setpwm t f)
    | _, _ => .illegal .reservedBitsTimerOrFreq

/-- Decoding, total on every 16-bit word (R72). -/
def decode (w : CmdWord) : Decoded :=
  match slice w 15 13 with
  | 0 => pinFormat w (slice w 6 0) (fun p n => .wrc p n (slice w 7 7 == 1))
  | 1 => pinFormat w (slice w 7 0) .wr
  | 2 => pinFormat w (slice w 7 0) .rd
  | 3 => tmrFormat w
  | 4 => if slice w 12 0 ≠ 0 then .illegal .reservedBits else .cmd .msread
  | _ => .illegal .reservedOpcode

/-- What reading one command from a byte image gives (R43). -/
inductive ImageRead where
  /-- A word was there; it decodes to `d`, and `rest` follows it. -/
  | word (d : Decoded) (rest : List Byte)
  /-- Fewer than two bytes are left. -/
  | truncated
deriving DecidableEq, Repr

/-- The command word whose byte image is low byte first (R43, D16). -/
def wordOfBytes (lo hi : Byte) : CmdWord := hi ++ lo

/-- Reads the first command of a byte image (R43). Total on any bytes. -/
def decodeBytes : List Byte → ImageRead
  | lo :: hi :: rest => .word (decode (wordOfBytes lo hi)) rest
  | _ => .truncated

/-- The command words of a byte image; an odd last byte is no word (R43). -/
def imageWords : List Byte → List CmdWord
  | lo :: hi :: rest => wordOfBytes lo hi :: imageWords rest
  | _ => []

/-- The code of a port (R66). -/
def portCode : Port → CmdWord
  | .b => 0
  | .c => 1
  | .d => 2

/-- The code of a timer (R67). -/
def timerCode : Timer → CmdWord
  | .a => 0
  | .b => 1
  | .c => 2

/-- The code of a frequency class (R68). -/
def freqCode : FreqClass → CmdWord
  | .hz31k => 0
  | .hz4k => 1
  | .hz1k => 2
  | .hz488 => 3
  | .hz244 => 4
  | .hz122 => 5
  | .hz30 => 6

/-- The word of a well-formed command: its base value OR'd with each field value shifted into place (30_encoding.md
section 6). -/
def encode : Instr → CmdWord
  | .wrc p n v => 0x0000#16 ||| portCode p <<< 11 ||| BitVec.ofNat 16 n <<< 8 ||| (if v then 1#16 else 0#16) <<< 7
  | .wr p n => 0x2000#16 ||| portCode p <<< 11 ||| BitVec.ofNat 16 n <<< 8
  | .rd p n => 0x4000#16 ||| portCode p <<< 11 ||| BitVec.ofNat 16 n <<< 8
  | .setpwm t f => 0x6000#16 ||| timerCode t <<< 11 ||| freqCode f <<< 8
  | .msread => 0x8000#16

/-- The byte image of a word, low byte first (R43). -/
def wordBytes (w : CmdWord) : List Byte := [w.setWidth 8, (w >>> 8).setWidth 8]

/-- The byte image of a well-formed command (R43). -/
def encodeBytes (i : Instr) : List Byte := wordBytes (encode i)

/-- The table's five mnemonics (R71). -/
inductive Mnemonic where
  | WRC
  | WR
  | RD
  | SETPWM
  | MSREAD
deriving DecidableEq, Repr

/-- The mnemonic of a command (R71). -/
def Instr.mnemonic : Instr → Mnemonic
  | .wrc _ _ _ => .WRC
  | .wr _ _ => .WR
  | .rd _ _ => .RD
  | .setpwm _ _ => .SETPWM
  | .msread => .MSREAD

/-- A row of the opcode map (R71). -/
structure OpcodeRow where
  /-- The mnemonic; none for a reserved OP. -/
  name : Option Mnemonic
  base : CmdWord
  mask : CmdWord
  /-- PORT, or TMR, which stands in the same bits, may not be 0b11. -/
  upperFieldNot3 : Bool
  /-- FREQ may not be 0b111. -/
  freqNot7 : Bool
  /-- How many words of the row are legal. -/
  legalWords : Nat
deriving DecidableEq, Repr

/-- The opcode map, row by row (R71). The decoder does not read it: a statement says that the two agree. -/
def opcodeMap : List OpcodeRow :=
  [⟨some .WRC, 0x0000, 0xE07F, true, false, 48⟩,
   ⟨some .WR, 0x2000, 0xE0FF, true, false, 24⟩,
   ⟨some .RD, 0x4000, 0xE0FF, true, false, 24⟩,
   ⟨some .SETPWM, 0x6000, 0xE0FF, true, true, 21⟩,
   ⟨some .MSREAD, 0x8000, 0xFFFF, false, false, 1⟩,
   ⟨none, 0xA000, 0xE000, false, false, 0⟩,
   ⟨none, 0xC000, 0xE000, false, false, 0⟩,
   ⟨none, 0xE000, 0xE000, false, false, 0⟩]

/-- "A word w selects a row when (w & mask) = match and the extra condition holds" (R71). A reserved row is always
illegal, so no word selects it. -/
def OpcodeRow.selects (r : OpcodeRow) (w : CmdWord) : Prop :=
  r.name.isSome ∧ w &&& r.mask = r.base ∧
    (r.upperFieldNot3 = true → ¬ (w.getLsbD 12 = true ∧ w.getLsbD 11 = true)) ∧
    (r.freqNot7 = true → ¬ (w.getLsbD 10 = true ∧ w.getLsbD 9 = true ∧ w.getLsbD 8 = true))

/-- How a port is written (R75). -/
def Port.asm : Port → String
  | .b => "B"
  | .c => "C"
  | .d => "D"

/-- How a timer is written (R75). -/
def Timer.asm : Timer → String
  | .a => "TA"
  | .b => "TB"
  | .c => "TC"

/-- How a frequency class is written (R75). -/
def FreqClass.asm : FreqClass → String
  | .hz31k => "Hz31k"
  | .hz4k => "Hz4k"
  | .hz1k => "Hz1k"
  | .hz488 => "Hz488"
  | .hz244 => "Hz244"
  | .hz122 => "Hz122"
  | .hz30 => "Hz30"

/-- The assembler line of a command; DIN is written beside a WR line (R75). -/
def Instr.asm : Instr → String
  | .wrc p n v => "WRC " ++ p.asm ++ ", " ++ toString n ++ ", " ++ (if v then "1" else "0")
  | .wr p n => "WR " ++ p.asm ++ ", " ++ toString n
  | .rd p n => "RD " ++ p.asm ++ ", " ++ toString n
  | .setpwm t f => "SETPWM " ++ t.asm ++ ", " ++ f.asm
  | .msread => "MSREAD"

/-- The command word that a table row's bits spell: the low `nbits` bits of `w`, the bits above them zero. -/
def tableWord (nbits w : Nat) : CmdWord := BitVec.ofNat 16 (w % 2 ^ nbits)

/-- The command that the decoder reads from a table row's bits. The word is laid out as its byte image (R43) and read
back by the decoder. -/
def decodeTableWord (nbits w : Nat) : Option Instr :=
  match decodeBytes (wordBytes (tableWord nbits w)) with
  | .word (.cmd i) _ => some i
  | _ => none

end Sys2Proof
end

