-- ==== Sys2Proof/Machine/State.lean ====
section
/-! DEFINITION. The state of the machine as plain data, the reasons a step can stop, and the state at launch. -/

namespace Sys2Proof.Machine

/-- A caller context: the main context or an interrupt context (R6, R30). -/
inductive Ctx where
  | main
  | irq (n : Nat)
deriving DecidableEq, Repr

/-- The phase of a transaction latch (R30). -/
inductive Phase where
  | idle
  | readDone
deriving DecidableEq, Repr

/-- A transaction latch TX[c] in phase ReadDone (R30). `scale` is the SCALE write that the second step of a SETPWM on
Timer A does after the register write (R30, last bullets; DEDUCED, log entry 9). -/
structure Latch where
  ctx : Ctx
  addr : Nat
  value : Byte
  scale : Option Code
deriving DecidableEq, Repr

/-- The value that `respond` returns (R85, R120). -/
inductive Result where
  | rd8 (v : BitVec 8)
  | rd16 (v : BitVec 16)
  | ms (v : MsWord)
deriving DecidableEq, Repr

/-- A result on the command port, with the caller context that receives it (R13, R40). -/
structure Response where
  ctx : Ctx
  result : Result
deriving DecidableEq, Repr

/-- A device register that holds a value: OUT[p] or TCR[t] (R26, R28). -/
inductive DeviceReg where
  | out (p : Port)
  | tcr (t : Timer)
deriving DecidableEq, Repr

/-- What an agent does next (R6). -/
inductive Event where
  /-- Caller context `c` issues the command word `w`, with `din` on the command port's DIN (R40, R63). -/
  | command (c : Ctx) (w : CmdWord) (din : Byte)
  /-- The innermost half-finished read-modify-write goes on with its second step (R30). -/
  | resume
  /-- Another register writer writes `v` to `r` (R50). -/
  | write (r : DeviceReg) (v : Byte)
  /-- The block is reset (R160). -/
  | reset
deriving DecidableEq, Repr

/-- An entry of the one total order of accesses (R51). -/
inductive Access where
  /-- The block reads `v` from bus address `a`. -/
  | readReg (a : Nat) (v : Byte)
  /-- The block writes `v` to bus address `a`. -/
  | writeReg (a : Nat) (v : Byte)
  /-- Another register writer writes `v` to bus address `a`. -/
  | otherWrite (a : Nat) (v : Byte)
  /-- The block writes SCALE. -/
  | writeScale (d : Code)
  /-- The block samples MSRAW. -/
  | sampleMs (raw : MsWord)
deriving DecidableEq, Repr

/-- The contents of the register bus: address and byte, addresses strictly rising. An address that is not listed holds
no register. -/
abbrev Memory := List Host.Cell

/-- The state of the block, of the device registers, of the command port and of the outside world's coming actions.
INVENTORY.md lists each field with its rule. -/
structure State where
  /-- The parameters (R8). No step changes them. -/
  params : Params
  /-- SCALE (R21). -/
  scale : Code
  /-- The latches TX[c] in phase ReadDone, innermost first; every other context's phase is Idle (R30). -/
  tx : List Latch
  /-- OUT[p] and TCR[t] at their bus addresses (R26, R28). -/
  bus : Memory
  /-- The mark REFUSED with the decoder's reason (R141). -/
  refused : Option Illegal
  /-- What the agents will do, oldest first. -/
  queue : List Event
  /-- The caller context of the command in execution. -/
  ctx : Ctx
  /-- DIN on the command port (R63). -/
  din : Byte
  /-- The result that the last step returned to a caller, if it returned one (R13, R23). -/
  response : Option Response
  /-- The pin environment's coming draws, oldest first (R27). -/
  pins : List Byte
  /-- How many draws the free value `Config.pinDraw` has given. -/
  pinDraws : Nat
  /-- The tick source's coming samples, oldest first (R29). -/
  ticks : List MsWord
  /-- How many samples the free value `Config.msDraw` has given. -/
  msDraws : Nat
  /-- The harness's command index (R24). -/
  index : Nat
  /-- All accesses so far, newest first (R51). -/
  trace : List Access
deriving DecidableEq, Repr

/-- The latch of context `c` when its phase is ReadDone (R30). -/
def State.latch (s : State) (c : Ctx) : Option Latch := s.tx.find? (fun l => decide (l.ctx = c))

/-- The phase of context `c` (R30). -/
def State.phase (s : State) (c : Ctx) : Phase := if (s.latch c).isSome then .readDone else .idle

/-- Reasons for a fault. -/
inductive Fault where
  /-- Raised by `regRead` and `regWrite` for an address at which no register stands (R41, R55). Safe: the machine stops.
  No command of a state that meets the invariant reaches one. -/
  | busHole (a : Nat)
deriving DecidableEq, Repr

/-- Reasons for a refusal. -/
inductive Refusal where
  /-- An instruction without a meaning, raised by `exec` only; no arm raises it now. Safe: the machine stops. -/
  | notModelled (mnemonic : String)
  /-- Raised by `turn` when the mark REFUSED is set: the run is over and nothing more is executed (R141, program P3).
  Safe: the machine stops. -/
  | runRefused (why : Illegal)
  /-- Raised by `withPin` for a pin index outside 0 to 7, a contract violation that no word can spell (R62, U1). Safe: the
  machine stops, and no decoded command reaches it. -/
  | pinOutOfRange (n : Nat)
deriving DecidableEq, Repr

/-- The outcome of a step of this machine. -/
abbrev Outcome := Host.Outcome State Fault Refusal

/-- The device registers at launch: each holds a free launch value (R26, R28, R161; log entry 2). -/
def launchBus (p : Params) : Memory :=
  [(p.addrOutB, Config.launchByte p.addrOutB), (p.addrOutC, Config.launchByte p.addrOutC),
   (p.addrOutD, Config.launchByte p.addrOutD), (p.addrTcrA, Config.launchByte p.addrTcrA),
   (p.addrTcrB, Config.launchByte p.addrTcrB), (p.addrTcrC, Config.launchByte p.addrTcrC)]

/-- The machine at launch (R160 to R162). SCALE is 3, no transaction is open and REFUSED is clear; the device registers
hold free launch values; nothing has been issued, drawn or returned yet. -/
def State.reset : State where
  params := .default
  scale := 3
  tx := []
  bus := launchBus .default
  refused := none
  queue := []
  ctx := .main
  din := 0
  response := none
  pins := []
  pinDraws := 0
  ticks := []
  msDraws := 0
  index := 0
  trace := []

end Sys2Proof.Machine
end

