-- ==== Sys2Proof/Machine/Operands.lean ====
section
/-! DEFINITION. The resolvers and the value functions of the commands: 40_pin_io.md, 41_timer_prescaler.md,
42_millis.md. -/

namespace Sys2Proof.Machine

/-- The bitmask of pin index n (R80). -/
def mask (n : Nat) : Byte := 0x01#8 <<< n

/-- The output-register resolver (R81). -/
def outAddr (p : Params) : Port → Nat
  | .b => p.addrOutB
  | .c => p.addrOutC
  | .d => p.addrOutD

/-- The input-register resolver (R82). -/
def inAddr (p : Params) : Port → Nat
  | .b => p.addrInB
  | .c => p.addrInC
  | .d => p.addrInD

/-- The timer control-register resolver (R101). -/
def tcrAddr (p : Params) : Timer → Nat
  | .a => p.addrTcrA
  | .b => p.addrTcrB
  | .c => p.addrTcrC

/-- The address of a device register (R26, R28). -/
def regAddr (p : Params) : DeviceReg → Nat
  | .out q => outAddr p q
  | .tcr t => tcrAddr p t

/-- The port whose input register stands at an address, if one does (R82). -/
def inPort (p : Params) (a : Nat) : Option Port :=
  if a = p.addrInB then some .b
  else if a = p.addrInC then some .c
  else if a = p.addrInD then some .d
  else none

/-- The new byte of a pin write: a true value clears the bit, a false value sets it (R83, R84). -/
def pinUpdate (n : Nat) (v : Bool) (old : Byte) : Byte :=
  if v then old &&& ~~~ (mask n) else old ||| mask n

/-- The logical value of WR: every nonzero DIN counts as true (R63, R84). -/
def dinTrue (din : Byte) : Bool := decide (din ≠ 0)

/-- The RD result: the complement of the masked byte, with an upper byte of ones when P_RD_WIDTH is 16 (R85). -/
def rdResult (w : RdWidth) (n : Nat) (v : Byte) : Result :=
  match w with
  | .w8 => .rd8 (~~~ (v &&& mask n))
  | .w16 => .rd16 (0xFF#8 ++ ~~~ (v &&& mask n))

/-- The two divider tables (R100). -/
inductive TimerClass where
  | class16
  | class8
deriving DecidableEq, Repr

/-- Which divider table applies to a timer (R100). -/
def timerClass : Timer → TimerClass
  | .a => .class16
  | .b => .class16
  | .c => .class8

/-- The Class16 divider table (R102). -/
def div16 : FreqClass → Code
  | .hz31k => 1
  | .hz4k => 2
  | .hz1k => 2
  | .hz488 => 3
  | .hz244 => 3
  | .hz122 => 4
  | .hz30 => 5

/-- The Class8 divider table (R102). -/
def div8 : FreqClass → Code
  | .hz31k => 1
  | .hz4k => 2
  | .hz1k => 3
  | .hz488 => 4
  | .hz244 => 5
  | .hz122 => 6
  | .hz30 => 7

/-- The divider code `Div(t, f)` (R102). -/
def dividerCode (t : Timer) (f : FreqClass) : Code :=
  match timerClass t with
  | .class16 => div16 f
  | .class8 => div8 f

/-- The register that SETPWM writes (R105). -/
def target (p : Params) : Timer → Nat
  | .a => tcrAddr p .a
  | .b => if p.legacyTimerB then tcrAddr p .a else tcrAddr p .b
  | .c => tcrAddr p .c

/-- The new control-register byte: bits 7:3 kept, bits 2:0 the divider code (R104, R107). -/
def csUpdate (d : Code) (old : Byte) : Byte := (old &&& 0xF8#8) ||| d.setWidth 8

/-- The SCALE write that belongs to SETPWM: only Timer A has one (R106). -/
def scaleWrite (t : Timer) (d : Code) : Option Code :=
  match t with
  | .a => some d
  | .b => none
  | .c => none

/-- `Fallback(raw)`, the identity (P_SCALE_FALLBACK, R121). -/
def scaleFallback (raw : MsWord) : MsWord := raw

/-- The transform of MSREAD: logical shifts at width 32 (R120, R122). -/
def msTransform (s : Code) (raw : MsWord) : MsWord :=
  match s.toNat with
  | 1 => raw >>> 6
  | 2 => raw >>> 3
  | 3 => raw
  | 4 => raw <<< 2
  | 5 => raw <<< 4
  | _ => scaleFallback raw

end Sys2Proof.Machine
end

