-- ==== Sys2Proof/Machine/Ops.lean ====
section
/-! DEFINITION. The shared operations: the register bus, the draws, the read-modify-write, the end of a command, and the
reset of the block. The block raises no exception and has no trap entry or return (R140, R146), so none is defined; what an
illegal word does is `refuse`. -/

namespace Sys2Proof.Machine

/-- The byte at an address, if a register stands there. -/
def Memory.read : Memory → Nat → Option Byte
  | [], _ => none
  | (b, w) :: t, a => if a = b then some w else Memory.read t a

/-- The memory with `v` at address `a`; it keeps the addresses strictly rising. -/
def Memory.write : Memory → Nat → Byte → Memory
  | [], a, v => [(a, v)]
  | (b, w) :: t, a, v =>
    if a < b then (a, v) :: (b, w) :: t
    else if a = b then (a, v) :: t
    else (b, w) :: Memory.write t a v

/-- The canonical form: addresses strictly rising. An address that is not listed reads as nothing, so no entry can equal
what an unlisted address reads as. -/
def Memory.wf : Memory → Bool
  | [] => true
  | (b, _) :: t => t.all (fun c => decide (b < c.1)) && Memory.wf t

/-- Adds an access to the total order (R51). -/
def State.log (s : State) (x : Access) : State := { s with trace := x :: s.trace }

/-- The pin environment's next draw: the next one that State lists, else a free value (R27; log entry 4). -/
def drawPins (s : State) : Byte × State :=
  match s.pins with
  | v :: rest => (v, { s with pins := rest })
  | [] => (Config.pinDraw s.pinDraws, { s with pinDraws := s.pinDraws + 1 })

/-- `MsRaw()`, one sample of the tick source: the next one that State lists, else a free value (R29; log entry 4). -/
def msRaw (s : State) : MsWord × State :=
  match s.ticks with
  | v :: rest => (v, { s with ticks := rest }.log (.sampleMs v))
  | [] =>
    (Config.msDraw s.msDraws, { s with msDraws := s.msDraws + 1 }.log (.sampleMs (Config.msDraw s.msDraws)))

/-- A read of the register that stands at bus address `from'`, seen at address `a`. -/
def readCell (s : State) (from' a : Nat) : Except Fault (Byte × State) :=
  match s.bus.read from' with
  | some v => .ok (v, s.log (.readReg a v))
  | none => .error (.busHole from')

/-- `RegRead(a)` (R13, R45, R46): an input register gives the pin environment's draw, or OUT[p] under P_LOOPBACK (R27);
another address gives the value last written there (R51). -/
def regRead (s : State) (a : Nat) : Except Fault (Byte × State) :=
  match inPort s.params a with
  | none => readCell s a a
  | some p =>
    if s.params.loopback then readCell s (outAddr s.params p) a
    else .ok ((drawPins s).1, (drawPins s).2.log (.readReg a (drawPins s).1))

/-- Writes a byte where a register stands and records the access `x`. -/
def storeCell (s : State) (a : Nat) (v : Byte) (x : Access) : Except Fault State :=
  match s.bus.read a with
  | some _ => .ok ({ s with bus := s.bus.write a v }.log x)
  | none => .error (.busHole a)

/-- `RegWrite(a, v)` by the block (R13, R45). -/
def regWrite (s : State) (a : Nat) (v : Byte) : Except Fault State := storeCell s a v (.writeReg a v)

/-- `SCALE <- d`, one indivisible step, for the commands that have a SCALE write (R13, R53, R106). -/
def putScale (s : State) (d : Option Code) : State :=
  match d with
  | some d => { s with scale := d }.log (.writeScale d)
  | none => s

/-- The end of a command: it returns its result if it has one, and the harness index goes on (R13, R24). -/
def complete (s : State) (r : Option Result) : State :=
  { s with index := s.index + 1, response := r.map (fun x => ⟨s.ctx, x⟩) }

/-- The write half of a read-modify-write, and the end of its command: the register first, SCALE second (R30, R49). -/
def commit (s : State) (a : Nat) (v : Byte) (d : Option Code) : Outcome :=
  match regWrite s a v with
  | .ok s' => .next (complete (putScale s' d) none)
  | .error e => .fault e

/-- Opens the transaction latch of the caller: `TX[c] = (ReadDone, addr, newValue)` (R30). -/
def openLatch (s : State) (a : Nat) (v : Byte) (d : Option Code) : State :=
  { s with tx := ⟨s.ctx, a, v, d⟩ :: s.tx, response := none }

/-- The read-modify-write of WRC, WR and SETPWM (R45): one step when P_ATOMIC is true, else its first step (R30). -/
def rmw (s : State) (a : Nat) (f : Byte → Byte) (d : Option Code) : Outcome :=
  match regRead s a with
  | .error e => .fault e
  | .ok (old, s') => if s.params.atomic then commit s' a (f old) d else .next (openLatch s' a (f old) d)

/-- The second step of the innermost half-finished read-modify-write (R30, R147). With none open nothing happens. -/
def resumeTop (s : State) : Outcome :=
  match s.tx with
  | [] => .next { s with response := none }
  | l :: rest => commit { s with tx := rest } l.addr l.value l.scale

/-- A pin command runs only with a pin index in 0 to 7 (R62, U1). -/
def withPin (n : Nat) (k : Outcome) : Outcome :=
  if n < 8 then k else .refused (.pinOutOfRange n)

/-- `refuse(reason)`: no access, no write, no result; the mark REFUSED is set (R13, R141). -/
def refuse (s : State) (r : Illegal) : State := { s with refused := some r, response := none }

/-- Another register writer writes a device register (R50). -/
def deviceWrite (s : State) (r : DeviceReg) (v : Byte) : Outcome :=
  match storeCell s (regAddr s.params r) v (.otherWrite (regAddr s.params r) v) with
  | .ok s' => .next { s' with response := none }
  | .error e => .fault e

/-- Reset of the block: SCALE is 3, every latch is Idle and a half-finished read-modify-write is dropped without its
write; the device registers and the tick source keep what they hold (R160, R161). -/
def blockReset (s : State) : State := { s with scale := 3, tx := [], response := none }

end Sys2Proof.Machine
end

