-- ==== Sys2Proof/Machine/Millis.lean ====
section
/-! DEFINITION. The millisecond read MSREAD (42_millis.md). -/

namespace Sys2Proof.Machine

/-- MSREAD: one sample of MSRAW, shifted as SCALE says (R120). -/
def execMsread (s : State) : Outcome :=
  .next (complete (msRaw s).2 (some (.ms (msTransform s.scale (msRaw s).1))))

end Sys2Proof.Machine
end

