-- ==== Sys2Proof/Machine/Pin.lean ====
section
/-! DEFINITION. The pin commands WRC, WR and RD (40_pin_io.md). -/

namespace Sys2Proof.Machine

/-- WRC: a read-modify-write of OUT[p] whose update the command word fixes (R83). -/
def execWrc (p : Port) (n : Nat) (v : Bool) (s : State) : Outcome :=
  withPin n (rmw s (outAddr s.params p) (pinUpdate n v) none)

/-- WR: the same read-modify-write, its update chosen by DIN (R84). -/
def execWr (p : Port) (n : Nat) (s : State) : Outcome :=
  withPin n (rmw s (outAddr s.params p) (pinUpdate n (dinTrue s.din)) none)

/-- RD: one read of IN[p]; the caller gets the complement of the masked byte (R85). -/
def execRd (p : Port) (n : Nat) (s : State) : Outcome :=
  withPin n
    (match regRead s (inAddr s.params p) with
    | .error e => .fault e
    | .ok (v, s') => .next (complete s' (some (rdResult s.params.rdWidth n v))))

end Sys2Proof.Machine
end

