-- ==== Sys2Proof/Machine/Timer.lean ====
section
/-! DEFINITION. The timer command SETPWM (41_timer_prescaler.md). -/

namespace Sys2Proof.Machine

/-- SETPWM: a read-modify-write of bits 2:0 of the target register; on Timer A the divider code also goes to SCALE
(R104 to R107). -/
def execSetpwm (t : Timer) (f : FreqClass) (s : State) : Outcome :=
  rmw s (target s.params t) (csUpdate (dividerCode t f)) (scaleWrite t (dividerCode t f))

end Sys2Proof.Machine
end

