-- ==== Sys2Proof/Machine/Dispatch.lean ====
section
/-! DEFINITION. One arm for each constructor of Instr. -/

namespace Sys2Proof.Machine

/-- The meaning of a command. When P_ATOMIC is false, a read-modify-write command's first step (R30). -/
def exec (i : Instr) (s : State) : Host.Outcome State Fault Refusal :=
  match i with
  | .wrc p n v => Sys2Proof.Machine.execWrc p n v s
  | .wr p n => Sys2Proof.Machine.execWr p n s
  | .rd p n => Sys2Proof.Machine.execRd p n s
  | .setpwm t f => Sys2Proof.Machine.execSetpwm t f s
  | .msread => Sys2Proof.Machine.execMsread s

end Sys2Proof.Machine
end

