-- ==== Sys2Proof/Machine/Agents.lean ====
section
/-! DEFINITION. Which agent moves next, and what it does (R6, R48, R50, R147). -/

namespace Sys2Proof.Machine

/-- Whether context `c` may issue a command now. With no transaction open any context may (R48, R149). While one is open
only an interrupt context that has none open itself may: the main context never comes between the two steps of a handler's
command (R30, R147). -/
def mayIssue (tx : List Latch) (c : Ctx) : Bool :=
  match tx with
  | [] => true
  | _ => decide (c ≠ .main) && tx.all (fun l => decide (l.ctx ≠ c))

/-- The block takes a command from the command port: a legal word is executed, an illegal word is refused and stays where
it is (R72, R141). -/
def takeCommand (s : State) (c : Ctx) (w : CmdWord) (din : Byte) (rest : List Event) : Outcome :=
  match decode w with
  | .cmd i => exec i { s with queue := rest, ctx := c, din := din }
  | .illegal r => .next (refuse s r)

/-- One step of the global interleaving. After a refusal the run is over (R141). A command that may not be issued yet waits
while the innermost open transaction is finished (R48). With nothing on the agenda the innermost open transaction is
finished, and with none open the block waits. -/
def turn (s : State) : Outcome :=
  match s.refused with
  | some r => .refused (.runRefused r)
  | none =>
    match s.queue with
    | [] => resumeTop s
    | .command c w din :: rest => if mayIssue s.tx c then takeCommand s c w din rest else resumeTop s
    | .resume :: rest => resumeTop { s with queue := rest }
    | .write r v :: rest => deviceWrite { s with queue := rest } r v
    | .reset :: rest => .next (blockReset { s with queue := rest })

/-- The agenda of a test program: one context issues its words in order, each with its DIN (R48, R60). -/
def programEvents (c : Ctx) (words : List (CmdWord × Byte)) : List Event :=
  words.map (fun x => .command c x.1 x.2)

/-- A number no open latch's interrupt context reaches. -/
def irqBound : List Latch → Nat
  | [] => 0
  | l :: t =>
    match l.ctx with
    | .main => irqBound t
    | .irq n => max (n + 1) (irqBound t)

/-- A context that may issue a command now: the main context, or while a transaction is open a fresh interrupt context. -/
def freshCtx (tx : List Latch) : Ctx :=
  match tx with
  | [] => .main
  | _ => .irq (irqBound tx)

/-- The agenda entry by which a caller issues a table row's word next, with DIN as it stands on the port. -/
def issueTableWord (s : State) (nbits w : Nat) : Event :=
  .command (freshCtx s.tx) (tableWord nbits w) s.din

end Sys2Proof.Machine
end

