-- ==== Sys2Proof/Machine/Step.lean ====
section
/-! DEFINITION. The step of the machine, and the state in which the next step runs a given command. -/

namespace Sys2Proof.Machine

/-- One step of the machine. -/
def step : State → Host.Outcome State Fault Refusal := turn

/-- The block has no program counter and fetches nothing (R24): commands come from the agenda. So this puts, before all that
the agents do, a caller that issues the word (log entry 6). -/
def State.withFetchWord (s : State) (nbits w : Nat) : State :=
  { s with queue := issueTableWord s nbits w :: s.queue }

end Sys2Proof.Machine
end

