-- ==== Sys2Proof/Safety.lean ====
section
/-! DEFINITION. The terms in which statements about the machine are made: the invariant, a command that runs undisturbed,
the end of a run, the launch premises of R163, and the total order of accesses of R51. -/

namespace Sys2Proof.Machine

/-- A legal value of SCALE: 1 to 5 (R21, R22). -/
def scaleLegal (d : Code) : Prop := 1 ≤ d.toNat ∧ d.toNat ≤ 5

/-- What holds of an open latch: it points at a device register; a SCALE write belongs to a SETPWM on Timer A, whose latch
points at TCR[A] and holds the same code (R30, R104); only the legacy SETPWM on Timer B writes TCR[A] without a SCALE write
(R105). -/
def latchOk (p : Params) (l : Latch) : Prop :=
  l.addr ∈ p.regAddrs ∧
    match l.scale with
    | some d => scaleLegal d ∧ l.addr = p.addrTcrA ∧ l.value.setWidth 3 = d
    | none => l.addr = p.addrTcrA → p.legacyTimerB = true

/-- Open latches nest: one for a context, the main context's only as the outermost (R30, R147). -/
def nested (tx : List Latch) : Prop :=
  (tx.map Latch.ctx).Nodup ∧ ∀ l ∈ tx.dropLast, l.ctx ≠ .main

/-- The invariant of the machine. -/
structure MachineInv (s : State) : Prop where
  /-- R8, R10. -/
  paramsWf : s.params.wf = true
  /-- Memory is in its canonical form. -/
  busWf : s.bus.wf = true
  /-- Every device register is on the bus (R26, R28). -/
  busMapped : ∀ a ∈ s.params.regAddrs, (s.bus.read a).isSome = true
  /-- Nothing else is (R55). -/
  busOnly : ∀ c ∈ s.bus, c.1 ∈ s.params.regAddrs
  /-- R22. -/
  scaleOk : scaleLegal s.scale
  /-- R30. -/
  latchesOk : ∀ l ∈ s.tx, latchOk s.params l
  /-- R147. -/
  nesting : nested s.tx
  /-- "When `P_ATOMIC` = true (the default), TX does not exist" (R30). -/
  atomicIdle : s.params.atomic = true → s.tx = []

/-- The part of the invariant that R22 needs: SCALE, and what open latches will write there, is in 1 to 5. -/
def ScaleInv (s : State) : Prop :=
  scaleLegal s.scale ∧ ∀ l ∈ s.tx, ∀ d, l.scale = some d → scaleLegal d

/-- A command that runs with no other agent between its steps: when it has opened a latch, its second step follows at
once. -/
def runAlone (i : Instr) (s : State) : Outcome :=
  match exec i s with
  | .next t => if t.tx.length = s.tx.length + 1 then resumeTop t else .next t
  | o => o

/-- Does the command write SCALE, and what (R106)? -/
def scaleOf : Instr → Option Code
  | .setpwm t f => scaleWrite t (dividerCode t f)
  | _ => none

/-- The bus address a command stores to, if it stores (R41). -/
def storeAddr (p : Params) : Instr → Option Nat
  | .wrc q _ _ => some (outAddr p q)
  | .wr q _ => some (outAddr p q)
  | .rd _ _ => none
  | .setpwm t _ => some (target p t)
  | .msread => none

/-- The byte a command stores when its read half gave `old` (R83, R84, R104). -/
def storeByte (din old : Byte) : Instr → Byte
  | .wrc _ n v => pinUpdate n v old
  | .wr _ n => pinUpdate n (dinTrue din) old
  | .rd _ _ => old
  | .setpwm t f => csUpdate (dividerCode t f) old
  | .msread => old

/-- Of all bytes on the bus only the one at `a` may have changed, and it is `v` now. -/
def storesOnly (s t : State) (a : Nat) (v : Byte) : Prop :=
  t.bus.read a = some v ∧ ∀ b, b ≠ a → t.bus.read b = s.bus.read b

/-- `TCR[A][2:0] = SCALE` (R163 step 5, R164). -/
def scaleMatched (s : State) : Prop :=
  (s.bus.read s.params.addrTcrA).map (fun v => v.setWidth 3) = some s.scale

/-- The end of a run: nothing left to do and no half-finished command. A run whose state has REFUSED set is never a
successful end (R141). -/
def successfulEnd (s : State) : Prop :=
  s.refused = none ∧ s.queue = [] ∧ s.tx = []

/-- What the surrounding firmware does before the block's results mean what the source intends (R163). -/
inductive BootStep where
  /-- Step 1. -/
  | initialiseClock
  /-- Step 2. -/
  | setVectorsAndTickSource
  /-- Step 3. -/
  | setTimerModeBits
  /-- Step 4. -/
  | setPinDirections
  /-- Step 5. -/
  | matchScale
deriving DecidableEq, Repr

/-- The order of the boot steps (R163). -/
def bootOrder : List BootStep :=
  [.initialiseClock, .setVectorsAndTickSource, .setTimerModeBits, .setPinDirections, .matchScale]

/-- The launch premises: the firmware has done the boot steps in this order, and step 5 shows in the state. The block checks
none of them, and no meaning depends on them (R163). -/
def LaunchPremises (done : List BootStep) (s : State) : Prop :=
  done = bootOrder ∧ scaleMatched s

/-- The last write to an address in an order of accesses, newest first (R51). -/
def lastWrite : List Access → Nat → Option Byte
  | [], _ => none
  | .writeReg b v :: t, a => if a = b then some v else lastWrite t a
  | .otherWrite b v :: t, a => if a = b then some v else lastWrite t a
  | .readReg _ _ :: t, a => lastWrite t a
  | .writeScale _ :: t, a => lastWrite t a
  | .sampleMs _ :: t, a => lastWrite t a

/-- What R51 lets a read of an address return: the last write earlier in the order, else the launch value. -/
def valueAfter (launch : Memory) (t : List Access) (a : Nat) : Option Byte :=
  match lastWrite t a with
  | some v => some v
  | none => launch.read a

/-- Every read in the order returned what R51 lets it return. A read of an input register is a draw, or under P_LOOPBACK the
value of OUT[p] at that point (R27). -/
def readsFollowOrder (p : Params) (launch : Memory) : List Access → Prop
  | [] => True
  | .readReg a v :: t =>
    readsFollowOrder p launch t ∧
      match inPort p a with
      | none => valueAfter launch t a = some v
      | some q => p.loopback = true → valueAfter launch t (outAddr p q) = some v
  | .writeReg _ _ :: t => readsFollowOrder p launch t
  | .otherWrite _ _ :: t => readsFollowOrder p launch t
  | .writeScale _ :: t => readsFollowOrder p launch t
  | .sampleMs _ :: t => readsFollowOrder p launch t

/-- The bus is sequentially consistent so far: every address holds the last value written in the one total order, and every
read returned the value its place in that order gives (R51). -/
structure SeqConsistent (launch : Memory) (s : State) : Prop where
  now : ∀ a, s.bus.read a = valueAfter launch s.trace a
  reads : readsFollowOrder s.params launch s.trace

/-- The bus accesses of the block keep to the nine addresses, and it never writes an input register (R27, R41). -/
def accessAllowed (p : Params) : Access → Prop
  | .readReg a _ => a ∈ p.addrs
  | .writeReg a _ => a ∈ p.regAddrs
  | .otherWrite a _ => a ∈ p.regAddrs
  | .writeScale _ => True
  | .sampleMs _ => True

end Sys2Proof.Machine
end

