-- ==== Sys2Proof/Certificates/Slice0/Obligations.lean ====
section
/-! DEFINITION. The statements about the machine that the provers settle. OBLIGATIONS.json lists them. -/

open Sys2Proof Sys2Proof.Machine

/-! ### Encoding -/

/-- 30_encoding.md: every bit of every operand is in the word, and the decoder reads each back. -/
def Obligations.DecodingAnEncodedCommandGivesItBack : Prop :=
  ∀ i : Instr, i.wf = true → decode (encode i) = .cmd i

/-- 30_encoding.md: a word the decoder reads as a command is that command's one encoding, and the command is well formed. -/
def Obligations.DecodedCommandEncodesToItsWord : Prop :=
  ∀ (w : CmdWord) (i : Instr), decode w = .cmd i → i.wf = true ∧ encode i = w

/-- R71: the decoder gives a row's command exactly for the words that select the row by mask, match and extra condition; each
row has as many words as R71 says, and 118 words are legal. -/
def Obligations.OpcodeMapSelectsExactlyTheLegalWords : Prop :=
  (∀ (w : CmdWord) (m : Mnemonic),
    (∃ i, decode w = .cmd i ∧ i.mnemonic = m) ↔ ∃ r ∈ opcodeMap, r.name = some m ∧ r.selects w) ∧
  (∀ r ∈ opcodeMap, ∃ words : List CmdWord,
    words.Nodup ∧ words.length = r.legalWords ∧ ∀ w, w ∈ words ↔ r.selects w) ∧
  (∃ words : List CmdWord,
    words.Nodup ∧ words.length = 118 ∧ ∀ w, w ∈ words ↔ ∃ i, decode w = .cmd i)

/-- 30_encoding.md section 4, 60_exceptions.md section 1: which words are illegal, that every other word decodes to the
command it encodes, that the reason depends only on the OP group, and that the block refuses an illegal word. The last clause
is the model's reading: that the refusing step answers a next state in which the refused word still heads the agenda is
DEDUCED, log entry 13. -/
def Obligations.IllegalWordsAndTheirReasons : Prop :=
  (∀ w : CmdWord,
    let op := (w.extractLsb 15 13).toNat
    let upper := (w.extractLsb 12 11).toNat
    (∃ r, decode w = .illegal r) ↔
      (op = 5 ∨ op = 6 ∨ op = 7) ∨
      (op = 0 ∧ (w.extractLsb 6 0).toNat ≠ 0) ∨
      ((op = 1 ∨ op = 2 ∨ op = 3) ∧ (w.extractLsb 7 0).toNat ≠ 0) ∨
      (op = 4 ∧ (w.extractLsb 12 0).toNat ≠ 0) ∨
      ((op = 0 ∨ op = 1 ∨ op = 2) ∧ upper = 3) ∨
      (op = 3 ∧ upper = 3) ∨
      (op = 3 ∧ (w.extractLsb 10 8).toNat = 7)) ∧
  (∀ w : CmdWord, (∃ r, decode w = .illegal r) ∨ ∃ i, decode w = .cmd i ∧ encode i = w) ∧
  (∀ (w : CmdWord) (r : Illegal), decode w = .illegal r →
    let op := (w.extractLsb 15 13).toNat
    r = if op ≤ 2 then .reservedBitsOrPort
        else if op = 3 then .reservedBitsTimerOrFreq
        else if op = 4 then .reservedBits
        else .reservedOpcode) ∧
  (∀ (s : State) (c : Ctx) (w : CmdWord) (din : Byte) (rest : List Event) (r : Illegal),
    s.refused = none → s.queue = .command c w din :: rest → mayIssue s.tx c = true → decode w = .illegal r →
    step s = .next { s with refused := some r, response := none })

/-- R43 (its byte order is D16's, for test images only): reading a byte image gives the command and leaves the bytes after
it. -/
def Obligations.ByteImageGivesTheCommandBack : Prop :=
  ∀ (i : Instr) (rest : List Byte), i.wf = true → decodeBytes (encodeBytes i ++ rest) = .word (.cmd i) rest

/-- Words written out from R61 to R69 decode to the commands they stand for (95_test_vectors.md section 2.1). -/
def Obligations.WrittenOutWordsDecode : Prop :=
  decode 0b0000001100000000#16 = .cmd (.wrc .b 3 false) ∧
  decode 0b0001011110000000#16 = .cmd (.wrc .d 7 true) ∧
  decode 0b0011000100000000#16 = .cmd (.wr .d 1) ∧
  decode 0b0100111000000000#16 = .cmd (.rd .c 6) ∧
  decode 0b0110001000000000#16 = .cmd (.setpwm .a .hz1k) ∧
  decode 0b0110110100000000#16 = .cmd (.setpwm .b .hz122) ∧
  decode 0b0111011000000000#16 = .cmd (.setpwm .c .hz30) ∧
  decode 0b1000000000000000#16 = .cmd .msread

/-! ### Steps and agents -/

/-- A caller whose command is next on the agenda, and may be issued, has the decoded command executed in the state that has
taken the command off the agenda and shows the caller and its DIN on the command port. The agenda, and what withFetchWord puts
there, are the model's choice: DESIGN CHOICE, log entries 6 and 7. -/
def Obligations.StepRunsTheDecodedCommand : Prop :=
  (∀ (s : State) (c : Ctx) (w : CmdWord) (din : Byte) (rest : List Event) (i : Instr),
    s.refused = none → s.queue = .command c w din :: rest → mayIssue s.tx c = true → decode w = .cmd i →
    step s = exec i { s with queue := rest, ctx := c, din := din }) ∧
  (∀ (s : State) (nbits w : Nat) (i : Instr),
    s.refused = none → decodeTableWord nbits w = some i →
    step (s.withFetchWord nbits w) = exec i { s with ctx := freshCtx s.tx })

/-- 60_exceptions.md section 1: an illegal word touches nothing, sets REFUSED with the decoder's reason, gives no response and
leaves the harness index; after that nothing is executed, no step clears the mark, and the run has not ended successfully. Two
points are the model's: that the refusing step answers a next state is DEDUCED, log entry 13; that afterwards every step of
every agent is refused, so that other writers, a reset and an open second step stop too, is DESIGN CHOICE, log entry 5. -/
def Obligations.IllegalCommandIsRefusedForGood : Prop :=
  (∀ (s : State) (c : Ctx) (w : CmdWord) (din : Byte) (rest : List Event) (r : Illegal),
    s.refused = none → s.queue = .command c w din :: rest → mayIssue s.tx c = true → decode w = .illegal r →
    ∃ t, step s = .next t ∧ t.refused = some r ∧ t.response = none ∧ t.bus = s.bus ∧ t.scale = s.scale ∧
      t.trace = s.trace ∧ t.ticks = s.ticks ∧ t.msDraws = s.msDraws ∧ t.pins = s.pins ∧ t.pinDraws = s.pinDraws ∧
      t.index = s.index ∧ t.tx = s.tx) ∧
  (∀ (s : State) (r : Illegal), s.refused = some r → step s = .refused (.runRefused r) ∧ ¬ successfulEnd s)

/-- R149: with no transaction open, every context may issue every command: the decoded command is executed, and from a state
that meets the invariant the step answers a next state. -/
def Obligations.EveryContextMayIssueEveryCommand : Prop :=
  ∀ (s : State) (c : Ctx) (i : Instr) (din : Byte) (rest : List Event),
    MachineInv s → s.refused = none → s.tx = [] → i.wf = true → s.queue = .command c (encode i) din :: rest →
    step s = exec i { s with queue := rest, ctx := c, din := din } ∧ ∃ t, step s = .next t

/-- 60_exceptions.md section 3: a handler's command between the two steps of another context's read-modify-write runs like any
other, on its own latch, and leaves every open latch as it was; the second step then writes the value computed before the
handler ran. The main context never comes between the two steps of a handler's command. Two points are the model's: that any
idle interrupt context may come inside any nesting (first clause) is DEDUCED, log entry 15; that a waiting command of the main
context leaves the agenda as it is while the step finishes the innermost transaction (last clause) is DESIGN CHOICE, log
entry 7. -/
def Obligations.HandlerCommandsNestInsideOpenTransactions : Prop :=
  (∀ (s : State) (k : Nat) (w : CmdWord) (din : Byte) (rest : List Event) (i : Instr),
    s.refused = none → s.queue = .command (.irq k) w din :: rest → s.phase (.irq k) = .idle → decode w = .cmd i →
    step s = exec i { s with queue := rest, ctx := .irq k, din := din }) ∧
  (∀ (i : Instr) (s t : State), runAlone i s = .next t → t.tx = s.tx) ∧
  (∀ (s : State) (l : Latch) (rest : List Latch) (q : List Event) (x : Byte),
    s.refused = none → s.queue = .resume :: q → s.tx = l :: rest → s.bus.read l.addr = some x →
    ∃ t, step s = .next t ∧ storesOnly s t l.addr l.value ∧ t.tx = rest) ∧
  (∀ (s : State) (l : Latch) (rest : List Latch) (w : CmdWord) (din : Byte) (q : List Event) (x : Byte),
    s.refused = none → s.queue = .command .main w din :: q → s.tx = l :: rest → s.bus.read l.addr = some x →
    ∃ t, step s = .next t ∧ storesOnly s t l.addr l.value ∧ t.tx = rest ∧ t.queue = s.queue)

/-- 20_memory.md section 4: a command that has to wait is taken after at most as many steps as transactions are open, and
nothing is taken before it. That it waits at the head of the agenda while open transactions finish is the model's choice:
DESIGN CHOICE, log entry 7. -/
def Obligations.WaitingCommandIsTakenInBoundedSteps : Prop :=
  ∀ (s : State) (c : Ctx) (w : CmdWord) (din : Byte) (rest : List Event),
    MachineInv s → s.refused = none → s.queue = .command c w din :: rest →
    ∃ k u, k ≤ s.tx.length ∧ Sys2Proof.core.run k s = .next u ∧ u.queue = s.queue ∧ u.refused = none ∧
      mayIssue u.tx c = true

/-- R50: another register writer may write OUT[p] or TCR[t] at any step, also between the two halves of a
read-modify-write. -/
def Obligations.OtherWriterMayWriteAtAnyStep : Prop :=
  ∀ (s : State) (r : DeviceReg) (v x : Byte) (rest : List Event),
    s.refused = none → s.queue = .write r v :: rest → s.bus.read (regAddr s.params r) = some x →
    ∃ t, step s = .next t ∧ storesOnly s t (regAddr s.params r) v ∧
      t = { s with bus := t.bus, queue := rest, response := none,
                   trace := .otherWrite (regAddr s.params r) v :: s.trace }

/-- 70_reset_and_hazards.md section 1: a reset of the block sets SCALE to 3 and every latch to Idle; a half-finished
read-modify-write is dropped without its write; the device registers, the draws and the tick source keep what they hold; and
the first thing the block does afterwards is to execute the first command issued to it. That a reset leaves the rest of the
agenda, the harness index and the record of accesses is the model's choice: DESIGN CHOICE, log entry 16. -/
def Obligations.BlockResetEffect : Prop :=
  (∀ (s : State) (rest : List Event), s.refused = none → s.queue = .reset :: rest →
    step s = .next { s with queue := rest, scale := 3, tx := [], response := none } ∧
    ∀ t, step s = .next t →
      (∀ c, t.phase c = .idle) ∧
      (∀ (c : Ctx) (w : CmdWord) (din : Byte) (q : List Event) (i : Instr),
        rest = .command c w din :: q → decode w = .cmd i →
        step t = exec i { t with queue := q, ctx := c, din := din })) ∧
  State.reset.refused = none ∧
  (∀ r : DeviceReg, State.reset.bus.read (regAddr State.reset.params r) =
    some (Config.launchByte (regAddr State.reset.params r)))

/-- R162: the reset state of the block, and what a launch leaves free. -/
def Obligations.LaunchStateOfTheBlock : Prop :=
  State.reset.scale = 3 ∧ (∀ c, State.reset.phase c = .idle) ∧ State.reset.refused = none ∧
  (∀ p, State.reset.bus.read (outAddr State.reset.params p) =
    some (Config.launchByte (outAddr State.reset.params p))) ∧
  (∀ t, State.reset.bus.read (tcrAddr State.reset.params t) =
    some (Config.launchByte (tcrAddr State.reset.params t))) ∧
  (∀ s : State, (blockReset s).bus = s.bus)

/-! ### The commands -/

/-- 40_pin_io.md section 2: WRC, whole: its word, its effect in one step, its two steps when P_ATOMIC is false, and its
illegal words. In the two-step branch two points are the model's: that the harness index goes on at the second step and not
at the first is DESIGN CHOICE, log entry 10; the latch's fourth part, the SCALE write, is DEDUCED, log entry 9. -/
def Obligations.WrcClearsOrSetsItsPinBit : Prop :=
  (∀ (p : Port) (n : Nat) (v : Bool) (s : State) (old : Byte),
    n < 8 → s.params.wf = true → s.bus.read (outAddr s.params p) = some old →
    let a := outAddr s.params p
    let new := if v = true then old &&& ~~~ (0x01#8 <<< n) else old ||| (0x01#8 <<< n)
    encode (.wrc p n v) =
      0x0000#16 ||| portCode p <<< 11 ||| BitVec.ofNat 16 n <<< 8 ||| BitVec.ofNat 16 v.toNat <<< 7 ∧
    (s.params.atomic = true →
      ∃ t, exec (.wrc p n v) s = .next t ∧ storesOnly s t a new ∧
        t = { s with bus := t.bus, response := none, index := s.index + 1,
                     trace := .writeReg a new :: .readReg a old :: s.trace }) ∧
    (s.params.atomic = false →
      ∃ t u, exec (.wrc p n v) s = .next t ∧ resumeTop t = .next u ∧ storesOnly s u a new ∧
        t = { s with tx := ⟨s.ctx, a, new, none⟩ :: s.tx, response := none, trace := .readReg a old :: s.trace } ∧
        u = { s with bus := u.bus, response := none, index := s.index + 1,
                     trace := .writeReg a new :: .readReg a old :: s.trace })) ∧
  (∀ w : CmdWord, (w.extractLsb 15 13).toNat = 0 →
    (w.extractLsb 12 11).toNat = 3 ∨ (w.extractLsb 6 0).toNat ≠ 0 → ∃ r, decode w = .illegal r)

/-- 40_pin_io.md section 3: WR, whole: any nonzero DIN clears the bit, DIN = 0 sets it, and WR does what WRC does with the
truth of DIN. In the two-step branch two points are the model's: that the harness index goes on at the second step and not at
the first is DESIGN CHOICE, log entry 10; the latch's fourth part, the SCALE write, is DEDUCED, log entry 9. -/
def Obligations.WrClearsOrSetsItsPinBitByDin : Prop :=
  (∀ (p : Port) (n : Nat) (s : State) (old : Byte),
    n < 8 → s.params.wf = true → s.bus.read (outAddr s.params p) = some old →
    let a := outAddr s.params p
    let new := if s.din ≠ 0 then old &&& ~~~ (0x01#8 <<< n) else old ||| (0x01#8 <<< n)
    encode (.wr p n) = 0x2000#16 ||| portCode p <<< 11 ||| BitVec.ofNat 16 n <<< 8 ∧
    (s.params.atomic = true →
      ∃ t, exec (.wr p n) s = .next t ∧ storesOnly s t a new ∧
        t = { s with bus := t.bus, response := none, index := s.index + 1,
                     trace := .writeReg a new :: .readReg a old :: s.trace }) ∧
    (s.params.atomic = false →
      ∃ t u, exec (.wr p n) s = .next t ∧ resumeTop t = .next u ∧ storesOnly s u a new ∧
        t = { s with tx := ⟨s.ctx, a, new, none⟩ :: s.tx, response := none, trace := .readReg a old :: s.trace } ∧
        u = { s with bus := u.bus, response := none, index := s.index + 1,
                     trace := .writeReg a new :: .readReg a old :: s.trace })) ∧
  (∀ (p : Port) (n : Nat) (s : State), exec (.wr p n) s = exec (.wrc p n (decide (s.din ≠ 0))) s) ∧
  (∀ w : CmdWord, (w.extractLsb 15 13).toNat = 1 →
    (w.extractLsb 12 11).toNat = 3 ∨ (w.extractLsb 7 0).toNat ≠ 0 → ∃ r, decode w = .illegal r)

/-- R85: RD, whole: the complement of the masked byte, in the width P_RD_WIDTH, from OUT[p] under P_LOOPBACK and else from
the pin environment's draw (the next one State lists, or the free value when it lists none); no register is written, and the
result is one of two values, never 0. -/
def Obligations.RdReturnsTheComplementOfTheMaskedInput : Prop :=
  (∀ (p : Port) (n : Nat) (s : State),
    n < 8 → s.params.wf = true →
    let a := inAddr s.params p
    let result (v : Byte) : Result :=
      if s.params.rdWidth = .w8 then .rd8 (~~~ (v &&& (0x01#8 <<< n))) else .rd16 (0xFF#8 ++ ~~~ (v &&& (0x01#8 <<< n)))
    encode (.rd p n) = 0x4000#16 ||| portCode p <<< 11 ||| BitVec.ofNat 16 n <<< 8 ∧
    (s.params.loopback = true → ∀ v, s.bus.read (outAddr s.params p) = some v →
      exec (.rd p n) s = .next { s with response := some ⟨s.ctx, result v⟩, index := s.index + 1,
                                        trace := .readReg a v :: s.trace }) ∧
    (s.params.loopback = false → ∀ v rest, s.pins = v :: rest →
      exec (.rd p n) s = .next { s with pins := rest, response := some ⟨s.ctx, result v⟩, index := s.index + 1,
                                        trace := .readReg a v :: s.trace }) ∧
    (s.params.loopback = false → s.pins = [] →
      exec (.rd p n) s = .next { s with pinDraws := s.pinDraws + 1,
                                        response := some ⟨s.ctx, result (Config.pinDraw s.pinDraws)⟩,
                                        index := s.index + 1,
                                        trace := .readReg a (Config.pinDraw s.pinDraws) :: s.trace }) ∧
    (∀ v : Byte, ~~~ (v &&& (0x01#8 <<< n)) = (if v.getLsbD n = true then ~~~ (0x01#8 <<< n) else 0xFF#8) ∧
      ~~~ (v &&& (0x01#8 <<< n)) ≠ 0#8)) ∧
  (∀ w : CmdWord, (w.extractLsb 15 13).toNat = 2 →
    (w.extractLsb 12 11).toNat = 3 ∨ (w.extractLsb 7 0).toNat ≠ 0 → ∃ r, decode w = .illegal r)

/-- 41_timer_prescaler.md section 2: SETPWM, whole: bits 7:3 of the target register kept, bits 2:0 the divider code, and for
Timer A the code goes to SCALE after the register write, in the same step. In the two-step branch two points
are the model's: that the harness index goes on at the second step and not at the first is DESIGN CHOICE, log entry 10; the
latch's fourth part, the SCALE write, is DEDUCED, log entry 9. -/
def Obligations.SetpwmWritesTheDividerCode : Prop :=
  (∀ (tm : Timer) (f : FreqClass) (s : State) (old : Byte) (a : Nat),
    s.params.wf = true →
    a = (match tm with
      | .a => s.params.addrTcrA
      | .b => if s.params.legacyTimerB = true then s.params.addrTcrA else s.params.addrTcrB
      | .c => s.params.addrTcrC) →
    s.bus.read a = some old →
    let d := dividerCode tm f
    let new := (old &&& 0xF8#8) ||| d.setWidth 8
    let order : List Access :=
      (if tm = .a then [.writeScale d] else []) ++ .writeReg a new :: .readReg a old :: s.trace
    encode (.setpwm tm f) = 0x6000#16 ||| timerCode tm <<< 11 ||| freqCode f <<< 8 ∧
    (s.params.atomic = true →
      ∃ t, exec (.setpwm tm f) s = .next t ∧ storesOnly s t a new ∧
        t = { s with bus := t.bus, scale := if tm = .a then d else s.scale, response := none, index := s.index + 1,
                     trace := order }) ∧
    (s.params.atomic = false →
      ∃ t u, exec (.setpwm tm f) s = .next t ∧ resumeTop t = .next u ∧ storesOnly s u a new ∧
        t = { s with tx := ⟨s.ctx, a, new, if tm = .a then some d else none⟩ :: s.tx, response := none,
                     trace := .readReg a old :: s.trace } ∧
        u = { s with bus := u.bus, scale := if tm = .a then d else s.scale, response := none, index := s.index + 1,
                     trace := order })) ∧
  (∀ w : CmdWord, (w.extractLsb 15 13).toNat = 3 →
    (w.extractLsb 12 11).toNat = 3 ∨ (w.extractLsb 10 8).toNat = 7 ∨ (w.extractLsb 7 0).toNat ≠ 0 →
    ∃ r, decode w = .illegal r)

/-- R120: MSREAD, whole: one sample of MSRAW (the next one State lists, or the free value when it lists none), shifted as
SCALE says, and nothing else changed. -/
def Obligations.MsreadReturnsTheScaledSample : Prop :=
  (∀ s : State,
    let result (raw : MsWord) : Result :=
      .ms (if s.scale = 1 then raw >>> 6
           else if s.scale = 2 then raw >>> 3
           else if s.scale = 3 then raw
           else if s.scale = 4 then raw <<< 2
           else if s.scale = 5 then raw <<< 4
           else raw)
    encode .msread = 0x8000#16 ∧
    (∀ raw rest, s.ticks = raw :: rest →
      exec .msread s = .next { s with ticks := rest, response := some ⟨s.ctx, result raw⟩, index := s.index + 1,
                                      trace := .sampleMs raw :: s.trace }) ∧
    (s.ticks = [] →
      exec .msread s = .next { s with msDraws := s.msDraws + 1,
                                      response := some ⟨s.ctx, result (Config.msDraw s.msDraws)⟩,
                                      index := s.index + 1,
                                      trace := .sampleMs (Config.msDraw s.msDraws) :: s.trace })) ∧
  (∀ w : CmdWord, (w.extractLsb 15 13).toNat = 4 → (w.extractLsb 12 0).toNat ≠ 0 → ∃ r, decode w = .illegal r)

/-! ### Frames -/

/-- What a command leaves unchanged, for all five commands: the parameters, the mark, the agenda and the command port's input
side always; SCALE except by SETPWM on Timer A; the pin draws except by RD; the samples except by MSREAD; the open latches but
for one new one; and every byte of the bus except the one at the command's store address. -/
def Obligations.CommandFrame : Prop :=
  ∀ (i : Instr) (s t : State), exec i s = .next t →
    t.params = s.params ∧ t.refused = s.refused ∧ t.queue = s.queue ∧ t.ctx = s.ctx ∧ t.din = s.din ∧
    ((∀ f, i ≠ .setpwm .a f) → t.scale = s.scale) ∧
    (s.params.wf = true → (∀ p n, i ≠ .rd p n) → t.pins = s.pins ∧ t.pinDraws = s.pinDraws) ∧
    (i ≠ .msread → t.ticks = s.ticks ∧ t.msDraws = s.msDraws) ∧
    (t.tx = s.tx ∨ ∃ l, l.ctx = s.ctx ∧ storeAddr s.params i = some l.addr ∧ t.tx = l :: s.tx) ∧
    (∀ b, storeAddr s.params i ≠ some b → t.bus.read b = s.bus.read b)

/-- The form of a command that stores at a step of its own: the second step of a read-modify-write changes the byte at the
latch's address, the latch, SCALE when the latch carries a SCALE write, and nothing else of the block. The latch's part for
the SCALE write is DEDUCED, log entry 9; that the harness index goes on here is DESIGN CHOICE, log entry 10. -/
def Obligations.SecondStepFrame : Prop :=
  ∀ (s t : State) (l : Latch) (rest : List Latch), s.tx = l :: rest → resumeTop s = .next t →
    storesOnly s t l.addr l.value ∧
    t = { s with bus := t.bus, tx := rest, scale := l.scale.getD s.scale, response := none, index := s.index + 1,
                 trace := t.trace }

/-- R86: a WRC or WR that no other writer disturbs changes at most bit n of OUT[p] and writes no other register, for every
port and pin, in one step or in two. -/
def Obligations.PinWritesKeepTheOtherBits : Prop :=
  ∀ (p : Port) (n : Nat) (i : Instr) (s t : State),
    s.params.wf = true → (i = .wr p n ∨ ∃ v, i = .wrc p n v) → runAlone i s = .next t →
    (∀ b, b ≠ outAddr s.params p → t.bus.read b = s.bus.read b) ∧
    ∃ old new, s.bus.read (outAddr s.params p) = some old ∧ t.bus.read (outAddr s.params p) = some new ∧
      ∀ k, k ≠ n → new.getLsbD k = old.getLsbD k

/-- R87: with P_LOOPBACK, for every port, pin and starting OUT[p]: writing low and reading back gives 0xFF, writing high and
reading back gives the complement of the mask, in both result widths. -/
def Obligations.LoopbackRoundTrip : Prop :=
  ∀ (p : Port) (n : Nat) (s : State) (old : Byte) (i : Instr) (low : Bool),
    n < 8 → s.params.wf = true → s.params.loopback = true → s.bus.read (outAddr s.params p) = some old →
    (i = .wrc p n low ∨ (i = .wr p n ∧ low = decide (s.din ≠ 0))) →
    let r8 : Byte := if low = true then 0xFF#8 else ~~~ (0x01#8 <<< n)
    ∃ t u, runAlone i s = .next t ∧ exec (.rd p n) t = .next u ∧
      u.response = some ⟨s.ctx, if s.params.rdWidth = .w8 then .rd8 r8 else .rd16 (0xFF#8 ++ r8)⟩

/-- R47: WRC, WR and SETPWM are idempotent: issued twice in a row with nothing in between, registers and SCALE are as after
one issue. RD and MSREAD change no register, no SCALE and no latch. -/
def Obligations.CommandsAreIdempotent : Prop :=
  (∀ (i : Instr) (s t : State), s.params.wf = true → (storeAddr s.params i).isSome = true → runAlone i s = .next t →
    ∃ u, runAlone i t = .next u ∧ (∀ b, u.bus.read b = t.bus.read b) ∧ u.scale = t.scale) ∧
  (∀ (i : Instr) (s t : State), storeAddr s.params i = none → exec i s = .next t →
    t.bus = s.bus ∧ t.scale = s.scale ∧ t.tx = s.tx)

/-! ### Resolvers and tables -/

/-- R80: the mask of pin n is 0x01 << n, which has exactly bit n set. -/
def Obligations.MaskHasExactlyItsBit : Prop :=
  ∀ n, n < 8 → mask n = 0x01#8 <<< n ∧ ∀ k, (mask n).getLsbD k = true ↔ k = n

/-- R81, R82, R101: the three resolvers. -/
def Obligations.ResolversPickTheirRegister : Prop :=
  ∀ p : Params,
    outAddr p .b = p.addrOutB ∧ outAddr p .c = p.addrOutC ∧ outAddr p .d = p.addrOutD ∧
    inAddr p .b = p.addrInB ∧ inAddr p .c = p.addrInC ∧ inAddr p .d = p.addrInD ∧
    tcrAddr p .a = p.addrTcrA ∧ tcrAddr p .b = p.addrTcrB ∧ tcrAddr p .c = p.addrTcrC

/-- R102: the divider table, all fourteen entries. -/
def Obligations.DividerTable : Prop :=
  (∀ t : Timer, t = .a ∨ t = .b →
    dividerCode t .hz31k = 1 ∧ dividerCode t .hz4k = 2 ∧ dividerCode t .hz1k = 2 ∧ dividerCode t .hz488 = 3 ∧
    dividerCode t .hz244 = 3 ∧ dividerCode t .hz122 = 4 ∧ dividerCode t .hz30 = 5) ∧
  dividerCode .c .hz31k = 1 ∧ dividerCode .c .hz4k = 2 ∧ dividerCode .c .hz1k = 3 ∧ dividerCode .c .hz488 = 4 ∧
  dividerCode .c .hz244 = 5 ∧ dividerCode .c .hz122 = 6 ∧ dividerCode .c .hz30 = 7

/-- R103: the properties (a) to (e) of the divider tables. -/
def Obligations.DividerTableProperties : Prop :=
  (∀ f, 1 ≤ (dividerCode .a f).toNat ∧ (dividerCode .a f).toNat ≤ 5 ∧ dividerCode .b f = dividerCode .a f ∧
    1 ≤ (dividerCode .c f).toNat ∧ (dividerCode .c f).toNat ≤ 7) ∧
  (∀ t f g, (freqCode f).toNat ≤ (freqCode g).toNat → (dividerCode t f).toNat ≤ (dividerCode t g).toNat) ∧
  (∀ t s, t = .a ∨ t = .b →
    exec (.setpwm t .hz1k) s = exec (.setpwm t .hz4k) s ∧ exec (.setpwm t .hz244) s = exec (.setpwm t .hz488) s) ∧
  (∀ f, (dividerCode .c f).toNat = (freqCode f).toNat + 1) ∧
  (∀ t f, dividerCode t f = 6 ∨ dividerCode t f = 7 → t = .c)

/-- R105, R107: SETPWM changes only its target register, keeps bits 7:3 of it and puts the divider code into bits 2:0. -/
def Obligations.SetpwmKeepsTheUpperBits : Prop :=
  ∀ (tm : Timer) (f : FreqClass) (s t : State), s.params.wf = true → runAlone (.setpwm tm f) s = .next t →
    let a := match tm with
      | .a => s.params.addrTcrA
      | .b => if s.params.legacyTimerB = true then s.params.addrTcrA else s.params.addrTcrB
      | .c => s.params.addrTcrC
    ∃ old new, s.bus.read a = some old ∧ storesOnly s t a new ∧
      new.extractLsb 7 3 = old.extractLsb 7 3 ∧ new.extractLsb 2 0 = dividerCode tm f

/-! ### SCALE and MSREAD -/

/-- R106: SCALE is written only by SETPWM on Timer A, with the command's divider code, which is in 1 to 5, whatever SCALE
was. -/
def Obligations.OnlyPrimaryTimerWritesScale : Prop :=
  (∀ (i : Instr) (s t : State), runAlone i s = .next t →
    (∀ f, i = .setpwm .a f → t.scale = dividerCode .a f) ∧ ((∀ f, i ≠ .setpwm .a f) → t.scale = s.scale)) ∧
  (∀ f, 1 ≤ (dividerCode .a f).toNat ∧ (dividerCode .a f).toNat ≤ 5)

/-- R22: SCALE stays in 1 to 5, from every state in which it is and open latches will keep it so, under every step of every
agent; and at reset it is. -/
def Obligations.ScaleStaysInOneToFive : Prop :=
  ScaleInv State.reset ∧ ∀ s t : State, ScaleInv s → step s = .next t → ScaleInv t

/-- 20_memory.md section 3: whatever P_ATOMIC is, SCALE changes only in one whole step: by a block reset, or by one write of
SCALE that follows a register write of the same step. -/
def Obligations.ScaleChangesInOneWholeWrite : Prop :=
  ∀ s t : State, step s = .next t → t.scale ≠ s.scale →
    (t.scale = 3 ∧ ∃ rest, s.queue = .reset :: rest) ∨
    ∃ a v before, t.trace = .writeScale t.scale :: .writeReg a v :: before ∧
      (before = s.trace ∨ ∃ x, before = .readReg a x :: s.trace)

/-- R122: MSREAD's arithmetic as numbers. -/
def Obligations.MsreadArithmetic : Prop :=
  ∀ (s : State) (raw : MsWord) (rest : List MsWord), s.ticks = raw :: rest →
    ∃ t r, exec .msread s = .next t ∧ t.response = some ⟨s.ctx, .ms r⟩ ∧
      (s.scale = 1 → r.toNat = raw.toNat / 64) ∧ (s.scale = 2 → r.toNat = raw.toNat / 8) ∧ (s.scale = 3 → r = raw) ∧
      (s.scale = 4 → r.toNat = raw.toNat * 4 % 2 ^ 32) ∧ (s.scale = 5 → r.toNat = raw.toNat * 16 % 2 ^ 32)

/-- R121, R142: a SCALE outside 1 to 5 raises nothing: MSREAD returns the raw sample; and no step of any agent leads from a
legal SCALE to such a one. -/
def Obligations.ScaleFallbackIsIdentityAndUnreachable : Prop :=
  (∀ (s : State) (raw : MsWord) (rest : List MsWord), s.ticks = raw :: rest → s.scale = 0 ∨ s.scale = 6 ∨ s.scale = 7 →
    ∃ t, exec .msread s = .next t ∧ t.response = some ⟨s.ctx, .ms raw⟩) ∧
  (∀ s t : State, ScaleInv s → step s = .next t → t.scale ≠ 0 ∧ t.scale ≠ 6 ∧ t.scale ≠ 7)

/-- R123: at the reset value 3 MSREAD returns MSRAW unchanged; a smaller code shifts right, a larger one left. -/
def Obligations.ScaleThreeIsIdentity : Prop :=
  State.reset.scale = 3 ∧
  ∀ (s : State) (raw : MsWord) (rest : List MsWord), s.ticks = raw :: rest →
    ∃ t r, exec .msread s = .next t ∧ t.response = some ⟨s.ctx, .ms r⟩ ∧
      (s.scale = 3 → r = raw) ∧
      (s.scale = 1 ∨ s.scale = 2 → ∃ k, 0 < k ∧ r = raw >>> k) ∧
      (s.scale = 4 ∨ s.scale = 5 → ∃ k, 0 < k ∧ r = raw <<< k)

/-- R168: MSREAD rescales the whole raw counter by the current SCALE and accumulates nothing: after SETPWM on Timer A the same
sample gives the new code's transform; with 800 the result falls from 800 to 100 when SCALE goes from 3 to 2. -/
def Obligations.MsreadFollowsTheNewScale : Prop :=
  (∀ (s t : State) (f : FreqClass) (raw : MsWord) (rest : List MsWord),
    runAlone (.setpwm .a f) s = .next t → s.ticks = raw :: rest →
    ∃ u, exec .msread t = .next u ∧ u.response = some ⟨s.ctx, .ms (msTransform (dividerCode .a f) raw)⟩) ∧
  msTransform 3 800 = 800 ∧ msTransform 2 800 = 100

/-- R164: MSREAD is scaled for the divider in TCR[A] while TCR[A][2:0] = SCALE; SETPWM on Timer A establishes that; another
writer's different CS breaks it, and so does the legacy SETPWM on Timer B when the codes differ. -/
def Obligations.ScaleMatchesPrimaryDivider : Prop :=
  (∀ (s : State) (x : Byte) (raw : MsWord) (rest : List MsWord),
    scaleMatched s → s.bus.read s.params.addrTcrA = some x → s.ticks = raw :: rest →
    ∃ t, exec .msread s = .next t ∧ t.response = some ⟨s.ctx, .ms (msTransform (x.extractLsb 2 0) raw)⟩) ∧
  (∀ (f : FreqClass) (s t : State), runAlone (.setpwm .a f) s = .next t → scaleMatched t) ∧
  (∀ (s t : State) (v : Byte), v.extractLsb 2 0 ≠ s.scale → deviceWrite s (.tcr .a) v = .next t → ¬ scaleMatched t) ∧
  (∀ (f : FreqClass) (s t : State), s.params.legacyTimerB = true → dividerCode .b f ≠ s.scale →
    runAlone (.setpwm .b f) s = .next t → ¬ scaleMatched t)

/-- R169: the legacy SETPWM on Timer B writes its code into TCR[A], leaves SCALE and TCR[Timer B] alone, and breaks the
equality of R164 whenever the code differs from SCALE. -/
def Obligations.LegacyTimerBMismatch : Prop :=
  ∀ (f : FreqClass) (s t : State), s.params.wf = true → s.params.legacyTimerB = true →
    runAlone (.setpwm .b f) s = .next t →
    (∃ new, t.bus.read s.params.addrTcrA = some new ∧ new.extractLsb 2 0 = dividerCode .b f) ∧
    t.scale = s.scale ∧ t.bus.read s.params.addrTcrB = s.bus.read s.params.addrTcrB ∧
    (dividerCode .b f ≠ s.scale → ¬ scaleMatched t)

/-- R164 over all agents: outside the legacy mode, only another writer's different CS in TCR[A], or a reset, can break
TCR[A][2:0] = SCALE. It rests on the latch's part for the SCALE write, which is the model's: DEDUCED, log entry 9. -/
def Obligations.ScaleMatchIsKeptByEveryOtherStep : Prop :=
  ∀ s t : State, MachineInv s → s.params.legacyTimerB = false → scaleMatched s →
    (∀ v rest, s.queue = .write (.tcr .a) v :: rest → v.extractLsb 2 0 = s.scale) →
    (∀ rest, s.queue ≠ .reset :: rest) →
    step s = .next t → scaleMatched t

/-! ### Concurrency -/

/-- 10_state.md section 4: with P_ATOMIC false a read-modify-write is two steps through the caller's latch; other writers and
complete commands of other contexts may come between; the second step writes the value computed in the first and, for SETPWM
on Timer A, SCALE after it. With P_ATOMIC true every command is one step and no latch is ever open. The latch's fourth part,
the SCALE write (scaleOf i), is the model's: DEDUCED, log entry 9. -/
def Obligations.TwoStepReadModifyWrite : Prop :=
  (∀ (i : Instr) (s : State) (a : Nat) (old : Byte),
    s.params.wf = true → s.params.atomic = false → i.wf = true → storeAddr s.params i = some a →
    s.bus.read a = some old →
    ∃ t, exec i s = .next t ∧ t.bus = s.bus ∧ t.scale = s.scale ∧ t.phase s.ctx = .readDone ∧
      t.latch s.ctx = some ⟨s.ctx, a, storeByte s.din old i, scaleOf i⟩ ∧
      (∀ c, c ≠ s.ctx → t.latch c = s.latch c) ∧
      ∀ u : State, u.tx = t.tx → (u.bus.read a).isSome = true →
        ∃ w, resumeTop u = .next w ∧ storesOnly u w a (storeByte s.din old i) ∧ w.tx = s.tx ∧
          w.scale = (scaleOf i).getD u.scale) ∧
  (∀ s t : State, MachineInv s → s.params.atomic = true → step s = .next t → t.tx = [])

/-- R166: an MSREAD of another context between the two steps of SETPWM on Timer A sees the old SCALE while TCR[A] still holds
its old value; the second step then sets both. -/
def Obligations.MsreadBetweenStepsSeesTheOldPair : Prop :=
  ∀ (s : State) (c : Ctx) (k : Nat) (f : FreqClass) (d d' : Byte) (rest : List Event) (old : Byte) (raw : MsWord)
    (ticks : List MsWord),
    s.params.wf = true → s.params.atomic = false → s.refused = none → s.tx = [] → c ≠ .irq k →
    s.queue = .command c (encode (.setpwm .a f)) d :: .command (.irq k) (encode .msread) d' :: .resume :: rest →
    s.bus.read s.params.addrTcrA = some old → s.ticks = raw :: ticks →
    ∃ s1 s2 s3, step s = .next s1 ∧ step s1 = .next s2 ∧ step s2 = .next s3 ∧
      s1.scale = s.scale ∧ s1.bus = s.bus ∧
      s2.response = some ⟨.irq k, .ms (msTransform s.scale raw)⟩ ∧ s2.scale = s.scale ∧ s2.bus = s.bus ∧
      s3.scale = dividerCode .a f ∧ storesOnly s s3 s.params.addrTcrA (csUpdate (dividerCode .a f) old)

/-- R167: with P_ATOMIC false, what another writer or another context's command writes to the register between the read step
and the write step is lost: the whole byte becomes the value computed from the stale read. With P_ATOMIC true no agent can
come between. -/
def Obligations.LostUpdateBetweenTheHalves : Prop :=
  (∀ (i : Instr) (s : State) (a : Nat) (old : Byte),
    s.params.wf = true → s.params.atomic = false → i.wf = true → storeAddr s.params i = some a →
    s.bus.read a = some old →
    ∃ t, exec i s = .next t ∧
      (∀ (r : DeviceReg) (x : Byte), regAddr s.params r = a →
        ∃ u w, deviceWrite t r x = .next u ∧ u.bus.read a = some x ∧ resumeTop u = .next w ∧
          w.bus.read a = some (storeByte s.din old i)) ∧
      (∀ (j : Instr) (c : Ctx) (din : Byte), j.wf = true → storeAddr s.params j = some a →
        ∃ u w, runAlone j { t with ctx := c, din := din } = .next u ∧
          u.bus.read a = some (storeByte din old j) ∧ resumeTop u = .next w ∧
          w.bus.read a = some (storeByte s.din old i))) ∧
  (∀ (i : Instr) (s t : State), s.params.atomic = true → exec i s = .next t → t.tx = s.tx)

/-- 20_memory.md section 3: a read-modify-write that nothing disturbs ends in the same state in two steps as in one, for every
command and every state. -/
def Obligations.UndisturbedTwoStepsEqualOneStep : Prop :=
  ∀ (i : Instr) (s t : State), s.params.atomic = false →
    (runAlone i s = .next t ↔
      ∃ u, exec i { s with params := { s.params with atomic := true } } = .next u ∧
        t = { u with params := s.params })

/-- R51: the register bus is sequentially consistent: from any launch contents, every step of every agent keeps that each
address holds the last value written in the one total order and that every read returned what its place in the order gives.
-/
def Obligations.BusIsSequentiallyConsistent : Prop :=
  (∀ s : State, s.trace = [] → SeqConsistent s.bus s) ∧
  ∀ (launch : Memory) (s t : State), SeqConsistent launch s → step s = .next t → SeqConsistent launch t

/-- R41, R49: which accesses each command makes, in their order (newest first). -/
def Obligations.CommandsMakeTheirAccessesInOrder : Prop :=
  ∀ (i : Instr) (s t : State), runAlone i s = .next t →
    ∃ new, t.trace = new ++ s.trace ∧
      (match i with
      | .wrc p _ _ =>
        ∃ x y, new = [.writeReg (outAddr s.params p) y, .readReg (outAddr s.params p) x]
      | .wr p _ =>
        ∃ x y, new = [.writeReg (outAddr s.params p) y, .readReg (outAddr s.params p) x]
      | .rd p _ => ∃ x, new = [.readReg (inAddr s.params p) x]
      | .setpwm .a f =>
        ∃ x y, new = [.writeScale (dividerCode .a f), .writeReg (target s.params .a) y, .readReg (target s.params .a) x]
      | .setpwm .b _ => ∃ x y, new = [.writeReg (target s.params .b) y, .readReg (target s.params .b) x]
      | .setpwm .c _ => ∃ x y, new = [.writeReg (target s.params .c) y, .readReg (target s.params .c) x]
      | .msread => ∃ raw, new = [.sampleMs raw]) ∧
      ∀ e ∈ new, accessAllowed s.params e

/-! ### Invariants of every step -/

/-- The invariant holds at reset. The addresses there are the model's choice: DESIGN CHOICE, log entry 1. -/
def Obligations.ResetMeetsTheInvariant : Prop := MachineInv State.reset

/-- Every step of every agent keeps the invariant. Its clauses on open latches rest on the model's list of them, DESIGN
CHOICE, log entry 8, and on the latch's part for the SCALE write, DEDUCED, log entry 9. -/
def Obligations.EveryStepKeepsTheInvariant : Prop :=
  ∀ s t : State, MachineInv s → step s = .next t → MachineInv t

/-- R140: nothing faults: every legal command completes, and so does every step of every agent until a word is refused. -/
def Obligations.EveryLegalCommandCompletes : Prop :=
  (∀ (s : State) (i : Instr), MachineInv s → i.wf = true → ∃ t, exec i s = .next t) ∧
  (∀ s : State, MachineInv s → s.refused = none → ∃ t, step s = .next t) ∧
  (∀ (s : State) (e : Fault), MachineInv s → step s ≠ .fault e)

/-- No step adds an access outside the nine addresses, and none is a write of an input register. -/
def Obligations.AccessesStayOnTheNineAddresses : Prop :=
  ∀ s t : State, MachineInv s → step s = .next t → ∀ e ∈ t.trace, e ∈ s.trace ∨ accessAllowed s.params e

/-- No step changes the parameters of the machine, which the model holds as plain data in State: DESIGN CHOICE, log entry 1.
-/
def Obligations.NoStepChangesTheParameters : Prop :=
  ∀ s t : State, step s = .next t → t.params = s.params

/-- R54, R171: a step takes at most the first entry off the agenda, and which entry is taken, and whether a word is refused,
does not depend on what the bus holds: nothing the block writes can change the commands it executes. -/
def Obligations.BusContentsNeverChangeTheCommands : Prop :=
  (∀ s t : State, step s = .next t → t.queue = s.queue ∨ ∃ e, s.queue = e :: t.queue) ∧
  (∀ (s t t' : State) (m : Memory), step s = .next t → step { s with bus := m } = .next t' →
    t'.queue = t.queue ∧ t'.refused = t.refused ∧ t'.ctx = t.ctx ∧ t'.din = t.din)

/-- R24 (for two-step commands the place is the model's choice, log entry 10): the harness index goes on by one for every
command that completes, and not for a refused word. -/
def Obligations.IndexCountsCompletedCommands : Prop :=
  (∀ (i : Instr) (s t : State), runAlone i s = .next t → t.index = s.index + 1) ∧
  (∀ (s : State) (r : Illegal), (refuse s r).index = s.index)

/-- R76: PINLOW clears the pin's bit and PINHIGH sets it. -/
def Obligations.PseudoCommandsDriveThePin : Prop :=
  ∀ (p : Port) (n : Nat), Instr.pinLow p n = .wrc p n true ∧ Instr.pinHigh p n = .wrc p n false ∧
    (n < 8 → ∀ s t : State, s.params.wf = true →
      (runAlone (.pinLow p n) s = .next t → ∃ x, t.bus.read (outAddr s.params p) = some x ∧ x.getLsbD n = false) ∧
      (runAlone (.pinHigh p n) s = .next t → ∃ x, t.bus.read (outAddr s.params p) = some x ∧ x.getLsbD n = true))
end

