-- ==== Sys2Proof/Laws/State.lean ====
section
/-! SUPPORT. One lemma for each field of State under each named update, so that no proof unfolds an update. -/

namespace Sys2Proof.Machine

section State_log
variable (s : State) (x : Access)

@[simp] theorem State.log_params : (s.log x).params = s.params := rfl
@[simp] theorem State.log_scale : (s.log x).scale = s.scale := rfl
@[simp] theorem State.log_tx : (s.log x).tx = s.tx := rfl
@[simp] theorem State.log_bus : (s.log x).bus = s.bus := rfl
@[simp] theorem State.log_refused : (s.log x).refused = s.refused := rfl
@[simp] theorem State.log_queue : (s.log x).queue = s.queue := rfl
@[simp] theorem State.log_ctx : (s.log x).ctx = s.ctx := rfl
@[simp] theorem State.log_din : (s.log x).din = s.din := rfl
@[simp] theorem State.log_response : (s.log x).response = s.response := rfl
@[simp] theorem State.log_pins : (s.log x).pins = s.pins := rfl
@[simp] theorem State.log_pinDraws : (s.log x).pinDraws = s.pinDraws := rfl
@[simp] theorem State.log_ticks : (s.log x).ticks = s.ticks := rfl
@[simp] theorem State.log_msDraws : (s.log x).msDraws = s.msDraws := rfl
@[simp] theorem State.log_index : (s.log x).index = s.index := rfl
@[simp] theorem State.log_trace : (s.log x).trace = x :: s.trace := rfl

end State_log

section Complete
variable (s : State) (r : Option Result)

@[simp] theorem complete_params : (complete s r).params = s.params := rfl
@[simp] theorem complete_scale : (complete s r).scale = s.scale := rfl
@[simp] theorem complete_tx : (complete s r).tx = s.tx := rfl
@[simp] theorem complete_bus : (complete s r).bus = s.bus := rfl
@[simp] theorem complete_refused : (complete s r).refused = s.refused := rfl
@[simp] theorem complete_queue : (complete s r).queue = s.queue := rfl
@[simp] theorem complete_ctx : (complete s r).ctx = s.ctx := rfl
@[simp] theorem complete_din : (complete s r).din = s.din := rfl
@[simp] theorem complete_response : (complete s r).response = r.map (fun x => ⟨s.ctx, x⟩) := rfl
@[simp] theorem complete_pins : (complete s r).pins = s.pins := rfl
@[simp] theorem complete_pinDraws : (complete s r).pinDraws = s.pinDraws := rfl
@[simp] theorem complete_ticks : (complete s r).ticks = s.ticks := rfl
@[simp] theorem complete_msDraws : (complete s r).msDraws = s.msDraws := rfl
@[simp] theorem complete_index : (complete s r).index = s.index + 1 := rfl
@[simp] theorem complete_trace : (complete s r).trace = s.trace := rfl

end Complete

section Openlatch
variable (s : State) (a : Nat) (v : Byte) (d : Option Code)

@[simp] theorem openLatch_params : (openLatch s a v d).params = s.params := rfl
@[simp] theorem openLatch_scale : (openLatch s a v d).scale = s.scale := rfl
@[simp] theorem openLatch_tx : (openLatch s a v d).tx = ⟨s.ctx, a, v, d⟩ :: s.tx := rfl
@[simp] theorem openLatch_bus : (openLatch s a v d).bus = s.bus := rfl
@[simp] theorem openLatch_refused : (openLatch s a v d).refused = s.refused := rfl
@[simp] theorem openLatch_queue : (openLatch s a v d).queue = s.queue := rfl
@[simp] theorem openLatch_ctx : (openLatch s a v d).ctx = s.ctx := rfl
@[simp] theorem openLatch_din : (openLatch s a v d).din = s.din := rfl
@[simp] theorem openLatch_response : (openLatch s a v d).response = none := rfl
@[simp] theorem openLatch_pins : (openLatch s a v d).pins = s.pins := rfl
@[simp] theorem openLatch_pinDraws : (openLatch s a v d).pinDraws = s.pinDraws := rfl
@[simp] theorem openLatch_ticks : (openLatch s a v d).ticks = s.ticks := rfl
@[simp] theorem openLatch_msDraws : (openLatch s a v d).msDraws = s.msDraws := rfl
@[simp] theorem openLatch_index : (openLatch s a v d).index = s.index := rfl
@[simp] theorem openLatch_trace : (openLatch s a v d).trace = s.trace := rfl

end Openlatch

section Refuse
variable (s : State) (r : Illegal)

@[simp] theorem refuse_params : (refuse s r).params = s.params := rfl
@[simp] theorem refuse_scale : (refuse s r).scale = s.scale := rfl
@[simp] theorem refuse_tx : (refuse s r).tx = s.tx := rfl
@[simp] theorem refuse_bus : (refuse s r).bus = s.bus := rfl
@[simp] theorem refuse_refused : (refuse s r).refused = some r := rfl
@[simp] theorem refuse_queue : (refuse s r).queue = s.queue := rfl
@[simp] theorem refuse_ctx : (refuse s r).ctx = s.ctx := rfl
@[simp] theorem refuse_din : (refuse s r).din = s.din := rfl
@[simp] theorem refuse_response : (refuse s r).response = none := rfl
@[simp] theorem refuse_pins : (refuse s r).pins = s.pins := rfl
@[simp] theorem refuse_pinDraws : (refuse s r).pinDraws = s.pinDraws := rfl
@[simp] theorem refuse_ticks : (refuse s r).ticks = s.ticks := rfl
@[simp] theorem refuse_msDraws : (refuse s r).msDraws = s.msDraws := rfl
@[simp] theorem refuse_index : (refuse s r).index = s.index := rfl
@[simp] theorem refuse_trace : (refuse s r).trace = s.trace := rfl

end Refuse

section Blockreset
variable (s : State)

@[simp] theorem blockReset_params : (blockReset s).params = s.params := rfl
@[simp] theorem blockReset_scale : (blockReset s).scale = 3 := rfl
@[simp] theorem blockReset_tx : (blockReset s).tx = [] := rfl
@[simp] theorem blockReset_bus : (blockReset s).bus = s.bus := rfl
@[simp] theorem blockReset_refused : (blockReset s).refused = s.refused := rfl
@[simp] theorem blockReset_queue : (blockReset s).queue = s.queue := rfl
@[simp] theorem blockReset_ctx : (blockReset s).ctx = s.ctx := rfl
@[simp] theorem blockReset_din : (blockReset s).din = s.din := rfl
@[simp] theorem blockReset_response : (blockReset s).response = none := rfl
@[simp] theorem blockReset_pins : (blockReset s).pins = s.pins := rfl
@[simp] theorem blockReset_pinDraws : (blockReset s).pinDraws = s.pinDraws := rfl
@[simp] theorem blockReset_ticks : (blockReset s).ticks = s.ticks := rfl
@[simp] theorem blockReset_msDraws : (blockReset s).msDraws = s.msDraws := rfl
@[simp] theorem blockReset_index : (blockReset s).index = s.index := rfl
@[simp] theorem blockReset_trace : (blockReset s).trace = s.trace := rfl

end Blockreset

section PutScale
variable (s : State) (d : Option Code)

@[simp] theorem putScale_params : (putScale s d).params = s.params := by cases d <;> rfl
@[simp] theorem putScale_scale : (putScale s d).scale = d.getD s.scale := by cases d <;> rfl
@[simp] theorem putScale_tx : (putScale s d).tx = s.tx := by cases d <;> rfl
@[simp] theorem putScale_bus : (putScale s d).bus = s.bus := by cases d <;> rfl
@[simp] theorem putScale_refused : (putScale s d).refused = s.refused := by cases d <;> rfl
@[simp] theorem putScale_queue : (putScale s d).queue = s.queue := by cases d <;> rfl
@[simp] theorem putScale_ctx : (putScale s d).ctx = s.ctx := by cases d <;> rfl
@[simp] theorem putScale_din : (putScale s d).din = s.din := by cases d <;> rfl
@[simp] theorem putScale_response : (putScale s d).response = s.response := by cases d <;> rfl
@[simp] theorem putScale_pins : (putScale s d).pins = s.pins := by cases d <;> rfl
@[simp] theorem putScale_pinDraws : (putScale s d).pinDraws = s.pinDraws := by cases d <;> rfl
@[simp] theorem putScale_ticks : (putScale s d).ticks = s.ticks := by cases d <;> rfl
@[simp] theorem putScale_msDraws : (putScale s d).msDraws = s.msDraws := by cases d <;> rfl
@[simp] theorem putScale_index : (putScale s d).index = s.index := by cases d <;> rfl
@[simp] theorem putScale_trace :
    (putScale s d).trace = (d.map Access.writeScale).toList ++ s.trace := by cases d <;> rfl

end PutScale

section DrawPins
variable (s : State)

@[simp] theorem drawPins_params : (drawPins s).2.params = s.params := by
  unfold drawPins; split <;> rfl
@[simp] theorem drawPins_scale : (drawPins s).2.scale = s.scale := by
  unfold drawPins; split <;> rfl
@[simp] theorem drawPins_tx : (drawPins s).2.tx = s.tx := by
  unfold drawPins; split <;> rfl
@[simp] theorem drawPins_bus : (drawPins s).2.bus = s.bus := by
  unfold drawPins; split <;> rfl
@[simp] theorem drawPins_refused : (drawPins s).2.refused = s.refused := by
  unfold drawPins; split <;> rfl
@[simp] theorem drawPins_queue : (drawPins s).2.queue = s.queue := by
  unfold drawPins; split <;> rfl
@[simp] theorem drawPins_ctx : (drawPins s).2.ctx = s.ctx := by
  unfold drawPins; split <;> rfl
@[simp] theorem drawPins_din : (drawPins s).2.din = s.din := by
  unfold drawPins; split <;> rfl
@[simp] theorem drawPins_response : (drawPins s).2.response = s.response := by
  unfold drawPins; split <;> rfl
@[simp] theorem drawPins_ticks : (drawPins s).2.ticks = s.ticks := by
  unfold drawPins; split <;> rfl
@[simp] theorem drawPins_msDraws : (drawPins s).2.msDraws = s.msDraws := by
  unfold drawPins; split <;> rfl
@[simp] theorem drawPins_index : (drawPins s).2.index = s.index := by
  unfold drawPins; split <;> rfl
@[simp] theorem drawPins_trace : (drawPins s).2.trace = s.trace := by
  unfold drawPins; split <;> rfl

end DrawPins

section MsRaw
variable (s : State)

@[simp] theorem msRaw_params : (msRaw s).2.params = s.params := by
  unfold msRaw; split <;> rfl
@[simp] theorem msRaw_scale : (msRaw s).2.scale = s.scale := by
  unfold msRaw; split <;> rfl
@[simp] theorem msRaw_tx : (msRaw s).2.tx = s.tx := by
  unfold msRaw; split <;> rfl
@[simp] theorem msRaw_bus : (msRaw s).2.bus = s.bus := by
  unfold msRaw; split <;> rfl
@[simp] theorem msRaw_refused : (msRaw s).2.refused = s.refused := by
  unfold msRaw; split <;> rfl
@[simp] theorem msRaw_queue : (msRaw s).2.queue = s.queue := by
  unfold msRaw; split <;> rfl
@[simp] theorem msRaw_ctx : (msRaw s).2.ctx = s.ctx := by
  unfold msRaw; split <;> rfl
@[simp] theorem msRaw_din : (msRaw s).2.din = s.din := by
  unfold msRaw; split <;> rfl
@[simp] theorem msRaw_response : (msRaw s).2.response = s.response := by
  unfold msRaw; split <;> rfl
@[simp] theorem msRaw_pins : (msRaw s).2.pins = s.pins := by
  unfold msRaw; split <;> rfl
@[simp] theorem msRaw_pinDraws : (msRaw s).2.pinDraws = s.pinDraws := by
  unfold msRaw; split <;> rfl
@[simp] theorem msRaw_index : (msRaw s).2.index = s.index := by
  unfold msRaw; split <;> rfl

end MsRaw

@[simp] theorem msRaw_trace (s : State) : (msRaw s).2.trace = .sampleMs (msRaw s).1 :: s.trace := by
  unfold msRaw; split <;> rfl

theorem drawPins_of_cons (s : State) (v : Byte) (rest : List Byte) (h : s.pins = v :: rest) :
    drawPins s = (v, { s with pins := rest }) := by
  simp [drawPins, h]

theorem drawPins_of_nil (s : State) (h : s.pins = []) :
    drawPins s = (Config.pinDraw s.pinDraws, { s with pinDraws := s.pinDraws + 1 }) := by
  simp [drawPins, h]

theorem msRaw_of_cons (s : State) (v : MsWord) (rest : List MsWord) (h : s.ticks = v :: rest) :
    msRaw s = (v, { s with ticks := rest }.log (.sampleMs v)) := by
  simp [msRaw, h]

theorem msRaw_of_nil (s : State) (h : s.ticks = []) :
    msRaw s = (Config.msDraw s.msDraws,
      { s with msDraws := s.msDraws + 1 }.log (.sampleMs (Config.msDraw s.msDraws))) := by
  simp [msRaw, h]

end Sys2Proof.Machine
end

