-- ==== Sys2Proof/Laws/Ops.lean ====
section
/-! SUPPORT. For each shared operation, once, everything it can do; and the inversion of a turn. -/

namespace Sys2Proof.Machine

/-! ### The resolvers -/

theorem outAddr_mem (p : Params) (q : Port) : outAddr p q ∈ p.regAddrs := by
  cases q <;> simp [outAddr, Params.regAddrs]

theorem tcrAddr_mem (p : Params) (t : Timer) : tcrAddr p t ∈ p.regAddrs := by
  cases t <;> simp [tcrAddr, Params.regAddrs]

theorem regAddr_mem (p : Params) (r : DeviceReg) : regAddr p r ∈ p.regAddrs := by
  cases r with
  | out q => exact outAddr_mem p q
  | tcr t => exact tcrAddr_mem p t

theorem target_mem (p : Params) (t : Timer) : target p t ∈ p.regAddrs := by
  cases t with
  | a => exact tcrAddr_mem p .a
  | b => simp only [target]; split <;> exact tcrAddr_mem p _
  | c => exact tcrAddr_mem p .c

theorem storeAddr_mem (p : Params) (i : Instr) (a : Nat) (h : storeAddr p i = some a) : a ∈ p.regAddrs := by
  cases i <;> simp only [storeAddr, Option.some.injEq, reduceCtorEq] at h <;> subst h <;>
    first | exact outAddr_mem _ _ | exact target_mem _ _

/-- What R10 says of a well-formed choice of parameters. -/
theorem Params.wf_nodup {p : Params} (h : p.wf = true) : p.addrs.Nodup := by
  simp only [Params.wf, Bool.and_eq_true, decide_eq_true_eq] at h
  exact h.2

theorem inPort_of_reg {p : Params} (h : p.wf = true) {a : Nat} (ha : a ∈ p.regAddrs) : inPort p a = none := by
  have hd := (List.nodup_append.1 (Params.wf_nodup h)).2.2 a ha
  simp only [Params.inAddrs, List.mem_cons, List.not_mem_nil, or_false] at hd
  simp only [inPort]
  rw [if_neg (hd _ (by simp)), if_neg (hd _ (by simp)), if_neg (hd _ (by simp))]

theorem inPort_inAddr {p : Params} (h : p.wf = true) (q : Port) : inPort p (inAddr p q) = some q := by
  have hd := (List.nodup_append.1 (Params.wf_nodup h)).2.1
  simp only [Params.inAddrs, List.nodup_cons, List.mem_cons, List.not_mem_nil, or_false, not_or, not_false_eq_true,
    List.nodup_nil, and_true] at hd
  obtain ⟨⟨h1, h2⟩, h3⟩ := hd
  cases q <;> simp [inPort, inAddr, Ne.symm h1, Ne.symm h2, Ne.symm h3]

theorem outAddr_inj {p : Params} (h : p.wf = true) {q r : Port} (e : outAddr p q = outAddr p r) : q = r := by
  have hd := Params.wf_nodup h
  simp only [Params.addrs, Params.regAddrs, Params.inAddrs, List.cons_append, List.nil_append, List.nodup_cons,
    List.mem_cons, List.not_mem_nil, or_false, not_or] at hd
  cases q <;> cases r <;> simp_all [outAddr]

theorem tcrAddr_inj {p : Params} (h : p.wf = true) {q r : Timer} (e : tcrAddr p q = tcrAddr p r) : q = r := by
  have hd := Params.wf_nodup h
  simp only [Params.addrs, Params.regAddrs, Params.inAddrs, List.cons_append, List.nil_append, List.nodup_cons,
    List.mem_cons, List.not_mem_nil, or_false, not_or] at hd
  cases q <;> cases r <;> simp_all [tcrAddr]

theorem outAddr_ne_tcrAddr {p : Params} (h : p.wf = true) (q : Port) (t : Timer) : outAddr p q ≠ tcrAddr p t := by
  have hd := Params.wf_nodup h
  simp only [Params.addrs, Params.regAddrs, Params.inAddrs, List.cons_append, List.nil_append, List.nodup_cons,
    List.mem_cons, List.not_mem_nil, or_false, not_or] at hd
  cases q <;> cases t <;> simp_all [outAddr, tcrAddr]

/-! ### The register bus -/

theorem readCell_ok {s t : State} {b a : Nat} {v : Byte} :
    readCell s b a = .ok (v, t) ↔ s.bus.read b = some v ∧ t = s.log (.readReg a v) := by
  unfold readCell
  split
  · next w hw =>
    simp only [Except.ok.injEq, Prod.mk.injEq, hw, Option.some.injEq]
    constructor
    · rintro ⟨rfl, rfl⟩; exact ⟨rfl, rfl⟩
    · rintro ⟨rfl, rfl⟩; exact ⟨rfl, rfl⟩
  · next hw => simp [hw]

theorem storeCell_ok {s t : State} {a : Nat} {v : Byte} {x : Access} :
    storeCell s a v x = .ok t ↔ (s.bus.read a).isSome = true ∧ t = { s with bus := s.bus.write a v }.log x := by
  unfold storeCell
  split
  · next w hw => simp [hw, eq_comm]
  · next hw => simp [hw]

/-- A read of a device register gives what the bus holds there. -/
theorem regRead_reg {s : State} {a : Nat} (h : inPort s.params a = none) : regRead s a = readCell s a a := by
  simp [regRead, h]

/-- A read of an input register under P_LOOPBACK gives OUT[p]. -/
theorem regRead_loopback {s : State} {a : Nat} {q : Port} (h : inPort s.params a = some q)
    (hl : s.params.loopback = true) : regRead s a = readCell s (outAddr s.params q) a := by
  simp [regRead, h, hl]

/-- A read of an input register without P_LOOPBACK gives a draw. -/
theorem regRead_draw {s : State} {a : Nat} {q : Port} (h : inPort s.params a = some q)
    (hl : s.params.loopback = false) :
    regRead s a = .ok ((drawPins s).1, (drawPins s).2.log (.readReg a (drawPins s).1)) := by
  simp [regRead, h, hl]

/-- A read changes nothing but the draws and the trace. -/
theorem regRead_frame {s t : State} {a : Nat} {v : Byte} (h : regRead s a = .ok (v, t)) :
    t = { s with pins := t.pins, pinDraws := t.pinDraws, trace := .readReg a v :: s.trace } := by
  unfold regRead at h
  split at h
  · obtain ⟨-, rfl⟩ := readCell_ok.1 h; rfl
  · split at h
    · obtain ⟨-, rfl⟩ := readCell_ok.1 h; rfl
    · simp only [Except.ok.injEq, Prod.mk.injEq] at h
      obtain ⟨rfl, rfl⟩ := h
      unfold drawPins
      split <;> rfl

/-- The fields a read leaves alone, one by one. -/
theorem regRead_same {s t : State} {a : Nat} {v : Byte} (h : regRead s a = .ok (v, t)) :
    t.params = s.params ∧ t.scale = s.scale ∧ t.tx = s.tx ∧ t.bus = s.bus ∧ t.refused = s.refused ∧
      t.queue = s.queue ∧ t.ctx = s.ctx ∧ t.din = s.din ∧ t.response = s.response ∧ t.ticks = s.ticks ∧
      t.msDraws = s.msDraws ∧ t.index = s.index ∧ t.trace = .readReg a v :: s.trace := by
  rw [regRead_frame h]; simp

/-! ### The read-modify-write -/

/-- The state after the write half and the end of the command. -/
def committed (s : State) (a : Nat) (v : Byte) (d : Option Code) : State :=
  complete (putScale ({ s with bus := s.bus.write a v }.log (.writeReg a v)) d) none

theorem commit_next {s t : State} {a : Nat} {v : Byte} {d : Option Code} :
    commit s a v d = .next t ↔ (s.bus.read a).isSome = true ∧ t = committed s a v d := by
  unfold commit regWrite
  split
  · next u hu =>
    obtain ⟨h, rfl⟩ := storeCell_ok.1 hu
    simp [h, committed, eq_comm]
  · next e he =>
    constructor
    · intro h; cases h
    · rintro ⟨h, -⟩
      obtain ⟨w, hw⟩ := Option.isSome_iff_exists.1 h
      simp [storeCell, hw] at he

theorem commit_never_refuses {s : State} {a : Nat} {v : Byte} {d : Option Code} {r : Refusal} :
    commit s a v d ≠ .refused r := by
  unfold commit; split <;> simp

/-- With P_ATOMIC a read-modify-write of a device register is one step. -/
theorem rmw_atomic {s : State} {a : Nat} {f : Byte → Byte} {d : Option Code} {old : Byte}
    (hp : inPort s.params a = none) (hr : s.bus.read a = some old) (ha : s.params.atomic = true) :
    rmw s a f d = .next (committed (s.log (.readReg a old)) a (f old) d) := by
  have : regRead s a = .ok (old, s.log (.readReg a old)) := (regRead_reg hp).trans (readCell_ok.2 ⟨hr, rfl⟩)
  simp only [rmw, this, ha, if_true]
  exact commit_next.2 ⟨by simp [hr], rfl⟩

/-- Without P_ATOMIC its first step opens the caller's latch. -/
theorem rmw_two_step {s : State} {a : Nat} {f : Byte → Byte} {d : Option Code} {old : Byte}
    (hp : inPort s.params a = none) (hr : s.bus.read a = some old) (ha : s.params.atomic = false) :
    rmw s a f d = .next (openLatch (s.log (.readReg a old)) a (f old) d) := by
  have : regRead s a = .ok (old, s.log (.readReg a old)) := (regRead_reg hp).trans (readCell_ok.2 ⟨hr, rfl⟩)
  simp [rmw, this, ha]

/-- Everything a read-modify-write that goes on can do. -/
theorem rmw_next {s t : State} {a : Nat} {f : Byte → Byte} {d : Option Code} (h : rmw s a f d = .next t) :
    ∃ old u, regRead s a = .ok (old, u) ∧
      ((s.params.atomic = true ∧ (u.bus.read a).isSome = true ∧ t = committed u a (f old) d) ∨
       (s.params.atomic = false ∧ t = openLatch u a (f old) d)) := by
  unfold rmw at h
  split at h
  · cases h
  · next old u hu =>
    refine ⟨old, u, hu, ?_⟩
    split at h
    · next ha =>
      obtain ⟨h1, h2⟩ := commit_next.1 h
      exact .inl ⟨ha, h1, h2⟩
    · next ha => exact .inr ⟨by simpa using ha, (by simpa using h.symm)⟩

theorem withPin_next {n : Nat} {k : Outcome} {t : State} (h : withPin n k = .next t) : n < 8 ∧ k = .next t := by
  unfold withPin at h
  split at h
  · exact ⟨‹_›, h⟩
  · cases h

@[simp] theorem withPin_of_lt {n : Nat} {k : Outcome} (h : n < 8) : withPin n k = k := by simp [withPin, h]

/-! ### The fields of `committed` -/

section Committed
variable (s : State) (a : Nat) (v : Byte) (d : Option Code)

@[simp] theorem committed_params : (committed s a v d).params = s.params := by simp [committed]
@[simp] theorem committed_scale : (committed s a v d).scale = d.getD s.scale := by simp [committed]
@[simp] theorem committed_tx : (committed s a v d).tx = s.tx := by simp [committed]
@[simp] theorem committed_bus : (committed s a v d).bus = s.bus.write a v := by simp [committed]
@[simp] theorem committed_refused : (committed s a v d).refused = s.refused := by simp [committed]
@[simp] theorem committed_queue : (committed s a v d).queue = s.queue := by simp [committed]
@[simp] theorem committed_ctx : (committed s a v d).ctx = s.ctx := by simp [committed]
@[simp] theorem committed_din : (committed s a v d).din = s.din := by simp [committed]
@[simp] theorem committed_response : (committed s a v d).response = none := by simp [committed]
@[simp] theorem committed_pins : (committed s a v d).pins = s.pins := by simp [committed]
@[simp] theorem committed_pinDraws : (committed s a v d).pinDraws = s.pinDraws := by simp [committed]
@[simp] theorem committed_ticks : (committed s a v d).ticks = s.ticks := by simp [committed]
@[simp] theorem committed_msDraws : (committed s a v d).msDraws = s.msDraws := by simp [committed]
@[simp] theorem committed_index : (committed s a v d).index = s.index + 1 := by simp [committed]
@[simp] theorem committed_trace :
    (committed s a v d).trace = (d.map Access.writeScale).toList ++ .writeReg a v :: s.trace := by simp [committed]

end Committed

/-! ### Commands -/

/-- The commands that store are read-modify-writes of their store address (R41, R45). -/
theorem exec_store {i : Instr} {s : State} {a : Nat} (h : storeAddr s.params i = some a) (hw : i.wf = true) :
    exec i s = rmw s a (fun old => storeByte s.din old i) (scaleOf i) := by
  cases i <;> simp only [storeAddr, Option.some.injEq, reduceCtorEq] at h <;> subst h <;>
    simp only [Instr.wf, decide_eq_true_eq] at hw <;>
    simp [exec, execWrc, execWr, execSetpwm, hw]
  all_goals rfl

/-- Everything a command that goes on can do. -/
theorem exec_next {i : Instr} {s t : State} (h : exec i s = .next t) :
    i.wf = true ∧
      ((∃ a, storeAddr s.params i = some a ∧ rmw s a (fun old => storeByte s.din old i) (scaleOf i) = .next t) ∨
       (∃ p n v u, i = .rd p n ∧ regRead s (inAddr s.params p) = .ok (v, u) ∧
          t = complete u (some (rdResult s.params.rdWidth n v))) ∨
       (i = .msread ∧ t = complete (msRaw s).2 (some (.ms (msTransform s.scale (msRaw s).1))))) := by
  cases i with
  | wrc p n v =>
    obtain ⟨hn, -⟩ := withPin_next h
    have hw : (Instr.wrc p n v).wf = true := by simpa [Instr.wf] using hn
    exact ⟨hw, .inl ⟨_, rfl, (exec_store rfl hw).symm.trans h⟩⟩
  | wr p n =>
    obtain ⟨hn, -⟩ := withPin_next h
    have hw : (Instr.wr p n).wf = true := by simpa [Instr.wf] using hn
    exact ⟨hw, .inl ⟨_, rfl, (exec_store rfl hw).symm.trans h⟩⟩
  | rd p n =>
    obtain ⟨hn, h⟩ := withPin_next h
    refine ⟨by simpa [Instr.wf] using hn, .inr (.inl ⟨p, n, ?_⟩)⟩
    split at h
    · cases h
    · next v u hu => exact ⟨v, u, rfl, hu, by simpa using h.symm⟩
  | setpwm t f => exact ⟨rfl, .inl ⟨_, rfl, (exec_store rfl rfl).symm.trans h⟩⟩
  | msread => exact ⟨rfl, .inr (.inr ⟨rfl, by simpa [exec, execMsread] using h.symm⟩)⟩

/-- The second step of the innermost open read-modify-write, or nothing when none is open. -/
theorem resumeTop_next {s t : State} (h : resumeTop s = .next t) :
    (s.tx = [] ∧ t = { s with response := none }) ∨
    (∃ l rest, s.tx = l :: rest ∧ (s.bus.read l.addr).isSome = true ∧
      t = committed { s with tx := rest } l.addr l.value l.scale) := by
  unfold resumeTop at h
  split at h
  · next hx => exact .inl ⟨hx, by simpa using h.symm⟩
  · next l rest hx =>
    obtain ⟨h1, h2⟩ := commit_next.1 h
    exact .inr ⟨l, rest, hx, h1, h2⟩

theorem deviceWrite_next {s t : State} {r : DeviceReg} {v : Byte} (h : deviceWrite s r v = .next t) :
    (s.bus.read (regAddr s.params r)).isSome = true ∧
      t = { s with bus := s.bus.write (regAddr s.params r) v, response := none,
                   trace := .otherWrite (regAddr s.params r) v :: s.trace } := by
  unfold deviceWrite at h
  split at h
  · next u hu =>
    obtain ⟨h1, rfl⟩ := storeCell_ok.1 hu
    exact ⟨h1, by simpa using h.symm⟩
  · cases h

/-- Everything a step that answers a next state can do (R6, R48, R50, R141, R160). -/
theorem step_next {s t : State} (h : step s = .next t) :
    s.refused = none ∧
      ((∃ c w d rest r, s.queue = .command c w d :: rest ∧ mayIssue s.tx c = true ∧ decode w = .illegal r ∧
          t = refuse s r) ∨
       (∃ c w d rest i, s.queue = .command c w d :: rest ∧ mayIssue s.tx c = true ∧ decode w = .cmd i ∧
          exec i { s with queue := rest, ctx := c, din := d } = .next t) ∨
       (resumeTop s = .next t ∧ (s.queue = [] ∨ ∃ c w d rest, s.queue = .command c w d :: rest ∧
          mayIssue s.tx c = false)) ∨
       (∃ rest, s.queue = .resume :: rest ∧ resumeTop { s with queue := rest } = .next t) ∨
       (∃ r v rest, s.queue = .write r v :: rest ∧ deviceWrite { s with queue := rest } r v = .next t) ∨
       (∃ rest, s.queue = .reset :: rest ∧ t = blockReset { s with queue := rest })) := by
  unfold step turn at h
  split at h
  · cases h
  · next hr =>
    refine ⟨hr, ?_⟩
    split at h
    · next hq => exact .inr (.inr (.inl ⟨h, .inl hq⟩))
    · next c w d rest hq =>
      split at h
      · next hm =>
        unfold takeCommand at h
        split at h
        · next i hi => exact .inr (.inl ⟨c, w, d, rest, i, hq, hm, hi, h⟩)
        · next r hi => exact .inl ⟨c, w, d, rest, r, hq, hm, hi, by simpa using h.symm⟩
      · next hm => exact .inr (.inr (.inl ⟨h, .inr ⟨c, w, d, rest, hq, by simpa using hm⟩⟩))
    · next rest hq => exact .inr (.inr (.inr (.inl ⟨rest, hq, h⟩)))
    · next r v rest hq => exact .inr (.inr (.inr (.inr (.inl ⟨r, v, rest, hq, h⟩))))
    · next rest hq => exact .inr (.inr (.inr (.inr (.inr ⟨rest, hq, by simpa using h.symm⟩))))

end Sys2Proof.Machine
end

