-- ==== Sys2Proof/Laws/Commands.lean ====
section
/-! SUPPORT. The value functions of the commands bit by bit, and everything an undisturbed command can do. -/

namespace Sys2Proof.Machine

/-! ### Values -/

theorem mask_getLsbD (n k : Nat) : (mask n).getLsbD k = (decide (k < 8) && decide (k = n)) := by
  have h1 : (0x01#8).getLsbD (k - n) = decide (k - n = 0) := by
    rw [show (0x01#8) = BitVec.twoPow 8 0 from rfl, BitVec.getLsbD_twoPow]
    simp [eq_comm]
  simp only [mask, BitVec.getLsbD_shiftLeft, h1]
  by_cases h8 : k < 8 <;> by_cases hn : k < n <;> simp [h8, hn] <;> omega

/-- A pin write sets or clears its own bit. -/
theorem pinUpdate_bit (n : Nat) (v : Bool) (old : Byte) (h : n < 8) : (pinUpdate n v old).getLsbD n = !v := by
  cases v <;> simp [pinUpdate, mask_getLsbD, h]

/-- A pin write keeps every other bit (R86). -/
theorem pinUpdate_other (n k : Nat) (v : Bool) (old : Byte) (h : k ≠ n) :
    (pinUpdate n v old).getLsbD k = old.getLsbD k := by
  cases v
  · simp [pinUpdate, mask_getLsbD, h]
  · simp only [pinUpdate, if_true, BitVec.getLsbD_and, BitVec.getLsbD_not, mask_getLsbD, h, decide_false,
      Bool.and_false, Bool.not_false, Bool.and_true]
    by_cases h8 : k < 8
    · simp [h8]
    · simp [BitVec.getLsbD_of_ge old k (by omega)]

theorem pinUpdate_idem (n : Nat) (v : Bool) (old : Byte) : pinUpdate n v (pinUpdate n v old) = pinUpdate n v old := by
  cases v
  · simp [pinUpdate, BitVec.or_assoc]
  · simp [pinUpdate, BitVec.and_assoc]

/-- SETPWM puts the divider code into bits 2:0 (R107). -/
theorem csUpdate_low (d : Code) (old : Byte) : (csUpdate d old).setWidth 3 = d := by
  apply BitVec.eq_of_getLsbD_eq
  intro k hk
  have : (0xF8#8).getLsbD k = false := by interval_cases k <;> rfl
  simp only [csUpdate, BitVec.getLsbD_setWidth, BitVec.getLsbD_or, BitVec.getLsbD_and, this, hk,
    show k < 8 by omega, decide_true, Bool.and_false, Bool.false_or, Bool.true_and]

/-- SETPWM keeps bits 7:3 (R107). -/
theorem csUpdate_high (d : Code) (old : Byte) (k : Nat) (h : 3 ≤ k) :
    (csUpdate d old).getLsbD k = old.getLsbD k := by
  simp only [csUpdate, BitVec.getLsbD_or, BitVec.getLsbD_and, BitVec.getLsbD_setWidth,
    BitVec.getLsbD_of_ge d k h, Bool.and_false, Bool.or_false]
  by_cases h8 : k < 8
  · have : (0xF8#8).getLsbD k = true := by interval_cases k <;> rfl
    simp [this]
  · simp [BitVec.getLsbD_of_ge old k (by omega)]

theorem csUpdate_idem (d : Code) (old : Byte) : csUpdate d (csUpdate d old) = csUpdate d old := by
  apply BitVec.eq_of_getLsbD_eq
  intro k hk
  by_cases h : 3 ≤ k
  · rw [csUpdate_high _ _ _ h]
  · have e : ∀ x : Byte, x.getLsbD k = (x.setWidth 3).getLsbD k := fun x => by
      simp [show k < 3 by omega]
    rw [e, e (csUpdate d old), csUpdate_low, csUpdate_low]

/-- Storing twice stores what storing once does (R47). -/
theorem storeByte_idem (din old : Byte) (i : Instr) : storeByte din (storeByte din old i) i = storeByte din old i := by
  cases i <;> simp [storeByte, pinUpdate_idem, csUpdate_idem]

/-- Timer A's codes are in 1 to 5 (R103). -/
theorem dividerCode_a_legal (f : FreqClass) : scaleLegal (dividerCode .a f) := by
  cases f <;> exact ⟨by decide, by decide⟩

theorem scaleOf_eq_some {i : Instr} {d : Code} (h : scaleOf i = some d) : ∃ f, i = .setpwm .a f ∧ d = dividerCode .a f := by
  cases i with
  | setpwm t f =>
    cases t <;> simp only [scaleOf, scaleWrite, Option.some.injEq, reduceCtorEq] at h
    exact ⟨f, rfl, h.symm⟩
  | _ => simp [scaleOf] at h

@[simp] theorem scaleOf_setpwm_a (f : FreqClass) : scaleOf (.setpwm .a f) = some (dividerCode .a f) := rfl
@[simp] theorem scaleOf_setpwm_b (f : FreqClass) : scaleOf (.setpwm .b f) = none := rfl
@[simp] theorem scaleOf_setpwm_c (f : FreqClass) : scaleOf (.setpwm .c f) = none := rfl
@[simp] theorem scaleOf_wrc (p : Port) (n : Nat) (v : Bool) : scaleOf (.wrc p n v) = none := rfl
@[simp] theorem scaleOf_wr (p : Port) (n : Nat) : scaleOf (.wr p n) = none := rfl

/-! ### Undisturbed commands -/

/-- The second step of a latch just opened ends the command as one step would. -/
theorem resumeTop_openLatch {u t : State} {a : Nat} {v : Byte} {d : Option Code} :
    resumeTop (openLatch u a v d) = .next t ↔ (u.bus.read a).isSome = true ∧ t = committed u a v d := by
  have : committed { openLatch u a v d with tx := u.tx } a v d = committed u a v d := by cases d <;> rfl
  simp only [resumeTop, openLatch_tx, commit_next, this]
  rfl

/-- A command that stores, undisturbed, ends in the committed state, in either P_ATOMIC mode. -/
theorem runAlone_store {i : Instr} {s : State} {a : Nat} {old : Byte} (hw : i.wf = true)
    (ha : storeAddr s.params i = some a) (hp : inPort s.params a = none) (hr : s.bus.read a = some old) :
    runAlone i s = .next (committed (s.log (.readReg a old)) a (storeByte s.din old i) (scaleOf i)) := by
  unfold runAlone
  rw [exec_store ha hw]
  cases hat : s.params.atomic with
  | true => rw [rmw_atomic hp hr hat]; simp
  | false =>
    rw [rmw_two_step hp hr hat]
    simp only [openLatch_tx, State.log_tx, List.length_cons, if_true]
    exact resumeTop_openLatch.2 ⟨by simp [hr], rfl⟩

/-- Everything an undisturbed command that goes on can do. -/
theorem runAlone_next {i : Instr} {s t : State} (h : runAlone i s = .next t) :
    i.wf = true ∧
      ((∃ a old u, storeAddr s.params i = some a ∧ regRead s a = .ok (old, u) ∧ (u.bus.read a).isSome = true ∧
          t = committed u a (storeByte s.din old i) (scaleOf i)) ∨
       (∃ p n v u, i = .rd p n ∧ regRead s (inAddr s.params p) = .ok (v, u) ∧
          t = complete u (some (rdResult s.params.rdWidth n v))) ∨
       (i = .msread ∧ t = complete (msRaw s).2 (some (.ms (msTransform s.scale (msRaw s).1))))) := by
  unfold runAlone at h
  split at h
  · next x hx =>
    obtain ⟨hw, ⟨a, ha, hr⟩ | ⟨p, n, v, u, rfl, hu, rfl⟩ | ⟨rfl, rfl⟩⟩ := exec_next hx
    · refine ⟨hw, .inl ?_⟩
      obtain ⟨old, u, hu, ⟨hat, hs, rfl⟩ | ⟨hat, rfl⟩⟩ := rmw_next hr
      · refine ⟨a, old, u, ha, hu, hs, ?_⟩
        have e : u.tx = s.tx := by rw [regRead_frame hu]
        simpa [e] using h.symm
      · have e : u.tx = s.tx := by rw [regRead_frame hu]
        simp only [openLatch_tx, e, List.length_cons, if_true] at h
        obtain ⟨hs, rfl⟩ := resumeTop_openLatch.1 h
        exact ⟨a, old, u, ha, hu, hs, rfl⟩
    · refine ⟨hw, .inr (.inl ⟨p, n, v, u, rfl, hu, ?_⟩)⟩
      have e : u.tx = s.tx := by rw [regRead_frame hu]
      simpa [e] using h.symm
    · exact ⟨hw, .inr (.inr ⟨rfl, by simpa using h.symm⟩)⟩
  · next o hn => exact absurd h (hn t)

/-- For well-formed parameters the read half of a command that stores reads the bus. -/
theorem runAlone_store_next {i : Instr} {s t : State} {a : Nat} (hp : s.params.wf = true)
    (ha : storeAddr s.params i = some a) (h : runAlone i s = .next t) :
    i.wf = true ∧ ∃ old, s.bus.read a = some old ∧
      t = committed (s.log (.readReg a old)) a (storeByte s.din old i) (scaleOf i) := by
  obtain ⟨hw, ⟨b, old, u, hb, hu, hs, rfl⟩ | ⟨p, n, v, u, rfl, -, -⟩ | ⟨rfl, -⟩⟩ := runAlone_next h
  · rw [ha, Option.some.injEq] at hb
    subst hb
    rw [regRead_reg (inPort_of_reg hp (storeAddr_mem _ _ _ ha))] at hu
    obtain ⟨hr, rfl⟩ := readCell_ok.1 hu
    exact ⟨hw, old, hr, rfl⟩
  · simp [storeAddr] at ha
  · simp [storeAddr] at ha

end Sys2Proof.Machine
end

