-- ==== Sys2Proof/Laws/Decode.lean ====
section
/-! SUPPORT. The fields of a word: bounds, what they determine, and what the formats accept and refuse. -/

namespace Sys2Proof

theorem slice_op_lt (w : CmdWord) : slice w 15 13 < 8 := Nat.mod_lt _ (by norm_num)
theorem slice_upper_lt (w : CmdWord) : slice w 12 11 < 4 := Nat.mod_lt _ (by norm_num)
theorem slice_lower_lt (w : CmdWord) : slice w 10 8 < 8 := Nat.mod_lt _ (by norm_num)

/-- A slice is the number that the bit vector's own field operation gives. -/
theorem slice_eq_extractLsb (w : CmdWord) (hi lo : Nat) (h : lo ≤ hi) : slice w hi lo = (w.extractLsb hi lo).toNat := by
  simp [slice, BitVec.extractLsb_toNat, Nat.shiftRight_eq_div_pow, Nat.sub_add_comm h]

/-- The four fields of R61 determine the word. -/
theorem word_eq_of_slices {w x : CmdWord} (h1 : slice w 15 13 = slice x 15 13) (h2 : slice w 12 11 = slice x 12 11)
    (h3 : slice w 10 8 = slice x 10 8) (h4 : slice w 7 0 = slice x 7 0) : w = x := by
  apply BitVec.eq_of_toNat_eq
  simp only [slice] at *
  have := w.isLt
  have := x.isLt
  norm_num at *
  omega

theorem portOf_eq_some {k : Nat} {p : Port} (h : portOf k = some p) : k = (portCode p).toNat := by
  unfold portOf at h
  split at h <;> simp only [Option.some.injEq, reduceCtorEq] at h <;> subst h <;> rfl

theorem timerOf_eq_some {k : Nat} {t : Timer} (h : timerOf k = some t) : k = (timerCode t).toNat := by
  unfold timerOf at h
  split at h <;> simp only [Option.some.injEq, reduceCtorEq] at h <;> subst h <;> rfl

theorem freqOf_eq_some {k : Nat} {f : FreqClass} (h : freqOf k = some f) : k = (freqCode f).toNat := by
  unfold freqOf at h
  split at h <;> simp only [Option.some.injEq, reduceCtorEq] at h <;> subst h <;> rfl

theorem portOf_eq_none {k : Nat} (hk : k < 4) : portOf k = none ↔ k = 3 := by
  interval_cases k <;> simp [portOf]

theorem timerOf_eq_none {k : Nat} (hk : k < 4) : timerOf k = none ↔ k = 3 := by
  interval_cases k <;> simp [timerOf]

theorem freqOf_eq_none {k : Nat} (hk : k < 8) : freqOf k = none ↔ k = 7 := by
  interval_cases k <;> simp [freqOf]

/-- What the PIN format reads as a command. -/
theorem pinFormat_cmd {w : CmdWord} {z : Nat} {k : Port → Nat → Instr} {i : Instr} (h : pinFormat w z k = .cmd i) :
    z = 0 ∧ ∃ p, slice w 12 11 = (portCode p).toNat ∧ i = k p (slice w 10 8) := by
  unfold pinFormat at h
  split at h
  · cases h
  · next hz =>
    split at h
    · cases h
    · next p hp => exact ⟨by simpa using hz, p, portOf_eq_some hp, by simpa using h.symm⟩

/-- What the PIN format refuses, and why. -/
theorem pinFormat_illegal {w : CmdWord} {z : Nat} {k : Port → Nat → Instr} {r : Illegal} :
    pinFormat w z k = .illegal r ↔ r = .reservedBitsOrPort ∧ (z ≠ 0 ∨ slice w 12 11 = 3) := by
  rw [← portOf_eq_none (slice_upper_lt w)]
  unfold pinFormat
  split
  · next hz => simp [hz, eq_comm]
  · next hz =>
    split
    · next hp => simp [hp, eq_comm]
    · next p hp => simp [hp, not_not.1 hz]

/-- What the TMR format reads as a command. -/
theorem tmrFormat_cmd {w : CmdWord} {i : Instr} (h : tmrFormat w = .cmd i) :
    slice w 7 0 = 0 ∧ ∃ t f, slice w 12 11 = (timerCode t).toNat ∧ slice w 10 8 = (freqCode f).toNat ∧
      i = .setpwm t f := by
  unfold tmrFormat at h
  split at h
  · cases h
  · next hz =>
    split at h
    · next t f ht hf => exact ⟨by simpa using hz, t, f, timerOf_eq_some ht, freqOf_eq_some hf, by simpa using h.symm⟩
    · cases h

/-- The word that a byte image's two bytes make is the word they came from (R43). -/
theorem wordOfBytes_wordBytes (w : CmdWord) : wordOfBytes (w.setWidth 8) ((w >>> 8).setWidth 8) = w := by
  apply BitVec.eq_of_getLsbD_eq
  intro k hk
  simp only [wordOfBytes, BitVec.getLsbD_append, BitVec.getLsbD_setWidth, BitVec.getLsbD_ushiftRight]
  by_cases h : k < 8
  · simp [h]
  · simp [h, show k - 8 < 8 by omega, show 8 + (k - 8) = k by omega]

/-- The decoder sees a table row's bits as they are. -/
theorem decodeTableWord_eq_some {nbits w : Nat} {i : Instr} :
    decodeTableWord nbits w = some i ↔ decode (tableWord nbits w) = .cmd i := by
  unfold decodeTableWord
  simp only [wordBytes, decodeBytes, wordOfBytes_wordBytes]
  cases decode (tableWord nbits w) <;> simp

end Sys2Proof
end

