-- ==== Sys2Proof/Laws/Invariant.lean ====
section
/-! SUPPORT. The parts of the invariant that concern open latches, and which states share it. -/

namespace Sys2Proof.Machine

/-- The invariant looks at the parameters, the bus, SCALE and the latches only. -/
theorem MachineInv.of_same {s t : State} (h : MachineInv s) (h1 : t.params = s.params) (h2 : t.bus = s.bus)
    (h3 : t.scale = s.scale) (h4 : t.tx = s.tx) : MachineInv t := by
  refine ⟨?_, ?_, ?_, ?_, ?_, ?_, ?_, ?_⟩ <;> simp only [h1, h2, h3, h4]
  exacts [h.paramsWf, h.busWf, h.busMapped, h.busOnly, h.scaleOk, h.latchesOk, h.nesting, h.atomicIdle]

/-- A latch that a command opens is well formed. -/
theorem latchOk_of_storeAddr {i : Instr} {p : Params} {a : Nat} (hp : p.wf = true) (ha : storeAddr p i = some a)
    (c : Ctx) (din old : Byte) : latchOk p ⟨c, a, storeByte din old i, scaleOf i⟩ := by
  refine ⟨storeAddr_mem _ _ _ ha, ?_⟩
  cases i with
  | wrc q n v =>
    simp only [storeAddr, Option.some.injEq] at ha
    subst ha
    exact fun e => absurd e (outAddr_ne_tcrAddr hp q .a)
  | wr q n =>
    simp only [storeAddr, Option.some.injEq] at ha
    subst ha
    exact fun e => absurd e (outAddr_ne_tcrAddr hp q .a)
  | rd q n => simp [storeAddr] at ha
  | msread => simp [storeAddr] at ha
  | setpwm t f =>
    simp only [storeAddr, Option.some.injEq] at ha
    subst ha
    cases t with
    | a => exact ⟨dividerCode_a_legal f, rfl, csUpdate_low _ _⟩
    | b =>
      intro e
      simp only [target] at e
      split at e
      · assumption
      · exact absurd (tcrAddr_inj hp (q := .b) (r := .a) e) (by simp)
    | c => exact fun e => absurd (tcrAddr_inj hp (q := .c) (r := .a) e) (by simp)

/-- A context that may issue a command keeps the latches nested. -/
theorem nested_cons {l : Latch} {tx : List Latch} (h : nested tx) (hm : mayIssue tx l.ctx = true) :
    nested (l :: tx) := by
  cases tx with
  | nil => simp [nested]
  | cons x t =>
    simp only [mayIssue, ne_eq, decide_not, List.all_cons, Bool.and_eq_true, Bool.not_eq_eq_eq_not, Bool.not_true,
      decide_eq_false_iff_not, List.all_eq_true] at hm
    obtain ⟨h1, h2⟩ := h
    refine ⟨?_, ?_⟩
    · simp only [List.map_cons, List.nodup_cons] at h1 ⊢
      refine ⟨?_, h1⟩
      simp only [List.mem_cons, List.mem_map, not_or, not_exists, not_and]
      exact ⟨Ne.symm hm.2.1, fun y hy => hm.2.2 y hy⟩
    · intro y hy
      simp only [List.dropLast_cons_cons, List.mem_cons] at hy
      rcases hy with rfl | hy
      · exact hm.1
      · exact h2 y hy

theorem nested_tail {l : Latch} {tx : List Latch} (h : nested (l :: tx)) : nested tx := by
  obtain ⟨h1, h2⟩ := h
  refine ⟨(List.nodup_cons.1 h1).2, ?_⟩
  cases tx with
  | nil => simp
  | cons x t => exact fun y hy => h2 y (by simp [hy])

end Sys2Proof.Machine
end

