-- ==== Sys2Proof/Laws/PerInstr.lean ====
section
/-! SUPPORT. Facts about every command, one lemma for each constructor. -/

namespace Sys2Proof.Laws

/-- The word of a well-formed command matches, under the mask of a row of the opcode map with the command's mnemonic, that
row's pattern (R71). -/
def EncodingSelectsRow.Statement (i : Instr) : Prop :=
  i.wf = true → ∃ r ∈ opcodeMap, r.name = some i.mnemonic ∧ encode i &&& r.mask = r.base

theorem EncodingSelectsRow.wrc (p : Port) (n : Nat) (v : Bool) : EncodingSelectsRow.Statement (.wrc p n v) := by
  intro hw
  simp only [Instr.wf, decide_eq_true_eq] at hw
  refine ⟨⟨some .WRC, 0x0000, 0xE07F, true, false, 48⟩, by decide, rfl, ?_⟩
  interval_cases n <;> cases p <;> cases v <;> decide

theorem EncodingSelectsRow.wr (p : Port) (n : Nat) : EncodingSelectsRow.Statement (.wr p n) := by
  intro hw
  simp only [Instr.wf, decide_eq_true_eq] at hw
  refine ⟨⟨some .WR, 0x2000, 0xE0FF, true, false, 24⟩, by decide, rfl, ?_⟩
  interval_cases n <;> cases p <;> decide

theorem EncodingSelectsRow.rd (p : Port) (n : Nat) : EncodingSelectsRow.Statement (.rd p n) := by
  intro hw
  simp only [Instr.wf, decide_eq_true_eq] at hw
  refine ⟨⟨some .RD, 0x4000, 0xE0FF, true, false, 24⟩, by decide, rfl, ?_⟩
  interval_cases n <;> cases p <;> decide

theorem EncodingSelectsRow.setpwm (t : Timer) (f : FreqClass) : EncodingSelectsRow.Statement (.setpwm t f) := by
  intro _
  refine ⟨⟨some .SETPWM, 0x6000, 0xE0FF, true, true, 21⟩, by decide, rfl, ?_⟩
  cases t <;> cases f <;> decide

theorem EncodingSelectsRow.msread : EncodingSelectsRow.Statement .msread := by
  intro _
  exact ⟨⟨some .MSREAD, 0x8000, 0xFFFF, false, false, 1⟩, by decide, rfl, by decide⟩

end Sys2Proof.Laws
end

