-- ==== Sys2Proof/Machine/Flags.lean ====
section
/-! DEFINITION. The block has no status flags, condition codes or predicates, and no command reports carry, zero, overflow
or error (10_state.md R25). There is no flag computation to define. -/
end

