-- ==== Sys2Proof/Tests/Slice0.lean ====
section
/-! SUPPORT. The model's own tests. Expected values come from spec/95_test_vectors.md and from the encoding tables of
spec/30_encoding.md; after them, for each obligation with hypotheses, a witness that they can hold together. -/

namespace Sys2Proof.Tests

open Sys2Proof.Machine

/-! ### Helpers -/

def nextOf (o : Outcome) : Option State :=
  match o with
  | .next t => some t
  | _ => none

def resultOf (o : Outcome) : Option Result := (nextOf o).bind (fun t => t.response.map (fun r => r.result))

def readOf (o : Outcome) (a : Nat) : Option Byte := (nextOf o).bind (fun t => t.bus.read a)

/-- OUT[B], OUT[C], OUT[D], TCR[A], TCR[Timer B], TCR[C] at the placeholder addresses. -/
def testBus (ob oc od ta tb tc : Byte) : Memory := [(0, ob), (1, oc), (2, od), (6, ta), (7, tb), (8, tc)]

def testState (p : Params) (bus : Memory) : State :=
  { State.reset with params := p, bus := bus, pins := [0x08], ticks := [800] }

def twoStep : Params := { Params.default with atomic := false }
def legacy : Params := { Params.default with legacyTimerB := true }
def looped : Params := { Params.default with loopback := true }

def bus0 : Memory := testBus 0x00 0xFF 0x5A 0xA8 0xA8 0xA8

def s0 : State := testState .default bus0
def s2 : State := testState twoStep bus0

/-! ### Decoding: words written out bit by bit from 30_encoding.md (95_test_vectors.md section 2.1) -/

theorem test_decode_wrc : decode 0b0000001110000000#16 = .cmd (.wrc .b 3 true) := by decide
theorem test_decode_wrc_high : decode 0b0000111100000000#16 = .cmd (.wrc .c 7 false) := by decide
theorem test_decode_wr : decode 0b0011011100000000#16 = .cmd (.wr .d 7) := by decide
theorem test_decode_rd : decode 0b0100100000000000#16 = .cmd (.rd .c 0) := by decide
theorem test_decode_setpwm_a : decode 0b0110001000000000#16 = .cmd (.setpwm .a .hz1k) := by decide
theorem test_decode_setpwm_b : decode 0b0110111000000000#16 = .cmd (.setpwm .b .hz30) := by decide
theorem test_decode_setpwm_c : decode 0b0111010100000000#16 = .cmd (.setpwm .c .hz122) := by decide
theorem test_decode_msread : decode 0b1000000000000000#16 = .cmd .msread := by decide

/-- 95_test_vectors.md section 2.2. -/
theorem test_illegal_pin_words :
    [0x1800#16, 0x0301, 0x0340, 0x2380, 0x3800, 0x4301, 0x5F00].map decode =
      List.replicate 7 (.illegal .reservedBitsOrPort) := by decide
theorem test_illegal_timer_words :
    [0x7800#16, 0x6700, 0x6201, 0x7F00].map decode = List.replicate 4 (.illegal .reservedBitsTimerOrFreq) := by decide
theorem test_illegal_other_words :
    [0x8001#16, 0x9000, 0xA000, 0xC000, 0xE000, 0xFFFF].map decode =
      List.replicate 2 (.illegal .reservedBits) ++ List.replicate 4 (.illegal .reservedOpcode) := by decide

theorem test_table_word : decodeTableWord 16 0x7600 = some (.setpwm .c .hz30) := by decide
theorem test_table_word_illegal : decodeTableWord 16 0x1800 = none := by decide

/-- The byte image of program P3 (95_test_vectors.md section 3). -/
theorem test_image_words :
    imageWords [0x00, 0x12, 0x00, 0x71, 0x00, 0x18, 0x80, 0x12] = [0x1200#16, 0x7100, 0x1800, 0x1280] := by decide
theorem test_image_truncated : decodeBytes [0x00] = .truncated := by decide

/-- R75. -/
theorem test_asm : (Instr.wrc .b 3 false).asm = "WRC B, 3, 0" := by decide
theorem test_asm_setpwm : (Instr.setpwm .a .hz1k).asm = "SETPWM TA, Hz1k" := by decide

/-! ### Well-formedness: each check refuses an ill-formed term -/

theorem test_wf_wrc_pin : (Instr.wrc .b 8 true).wf = false := by decide
theorem test_wf_wr_pin : (Instr.wr .c 8).wf = false := by decide
theorem test_wf_rd_pin : (Instr.rd .d 9).wf = false := by decide
theorem test_wf_params : Params.default.wf = true := by decide
theorem test_wf_params_width : ({ Params.default with addrWidth := 0 } : Params).wf = false := by decide
theorem test_wf_params_fit : ({ Params.default with addrWidth := 3 } : Params).wf = false := by decide
theorem test_wf_params_distinct : ({ Params.default with addrInB := 6 } : Params).wf = false := by decide

/-! ### Commands -/

/-- W1 step 1. -/
theorem test_wrc_sets : readOf (exec (.wrc .b 3 false) s0) 0 = some 0x08 := by decide
/-- Section 2.3: old 0x5A, pin 3, VAL = 1. -/
theorem test_wrc_clears : readOf (exec (.wrc .d 3 true) s0) 2 = some 0x52 := by decide
/-- Section 2.3: WR C, 0 with DIN = 0x80 and OUT[C] = 0xFF. -/
theorem test_wr_nonzero_clears : readOf (exec (.wr .c 0) { s0 with din := 0x80 }) 1 = some 0xFE := by decide
/-- Section 2.3: WR D, 7 with DIN = 0x00, old 0x5A, VAL = 0. -/
theorem test_wr_zero_sets : readOf (exec (.wr .d 7) { s0 with din := 0 }) 2 = some 0xDA := by decide
/-- W1 step 2, under P_LOOPBACK. -/
theorem test_rd_loopback :
    resultOf (exec (.rd .b 3) (testState looped (testBus 0x08 0 0 0 0 0))) = some (.rd8 0xF7) := by decide
/-- Section 2.4: RD D, 7 with IN = 0x80 at width 16. -/
theorem test_rd_wide :
    resultOf (exec (.rd .d 7) { testState { Params.default with rdWidth := .w16 } bus0 with pins := [0x80] }) =
      some (.rd16 0xFF7F) := by decide
/-- Section 2.5: SETPWM TC, Hz30 on 0xA8. -/
theorem test_setpwm_c : readOf (exec (.setpwm .c .hz30) s0) 8 = some 0xAF := by decide
/-- Section 2.5: SETPWM TA, Hz1k. -/
theorem test_setpwm_a :
    (nextOf (exec (.setpwm .a .hz1k) s0)).map (fun t => (t.bus.read 6, t.scale)) = some (some 0xAA, 2) := by decide
/-- Section 2.5, legacy mode: SETPWM TB, Hz122 with TCR[A] = 0x03 and TCR[Timer B] = 0x40. -/
theorem test_setpwm_b_legacy :
    (nextOf (exec (.setpwm .b .hz122) (testState legacy (testBus 0 0 0 0x03 0x40 0)))).map
      (fun t => (t.bus.read 6, t.bus.read 7, t.scale)) = some (some 0x04, some 0x40, 3) := by decide
/-- W2 step 2. -/
theorem test_msread_scale2 : resultOf (exec .msread { s0 with scale := 2 }) = some (.ms 100) := by decide
/-- Program P2 step 7: the left shift truncates. -/
theorem test_msread_scale5 :
    resultOf (exec .msread { s0 with scale := 5, ticks := [0x10000001] }) = some (.ms 0x10) := by decide

/-! ### Steps -/

/-- The first command after reset runs, although the launch values are free. -/
theorem test_first_command_runs : (nextOf (step (State.reset.withFetchWord 16 0x0300))).isSome = true := by decide

/-- Program P3 step 2: an illegal word sets REFUSED and touches nothing. -/
theorem test_illegal_word_is_refused :
    (nextOf (step (s0.withFetchWord 16 0x1800))).map (fun t => (t.refused, t.bus, t.index)) =
      some (some .reservedBitsOrPort, bus0, 0) := by decide

/-- Section 2.7 step 1: the latch after the first step of WRC B, 0, 0. -/
theorem test_two_step_latch :
    (nextOf (step (s2.withFetchWord 16 0x0000))).map (fun t => (t.latch .main, t.bus)) =
      some (some ⟨.main, 0, 0x01, none⟩, bus0) := by decide

/-- Section 2.7: WRC B, 7, 0 of a handler between the two steps of WRC B, 0, 0 is lost. -/
theorem test_lost_update :
    ((nextOf (exec (.wrc .b 0 false) s2)).bind (fun t => nextOf (runAlone (.wrc .b 7 false) { t with ctx := .irq 0 }))).map
      (fun u => (u.bus.read 0, readOf (resumeTop u) 0)) = some (some 0x80, some 0x01) := by decide

/-! ### Witnesses -/

/-- An open latch of the main context for WRC B, 0, 0. -/
def openMain : State := { s2 with tx := [⟨.main, 0, 0x01, none⟩] }

theorem s0_inv : MachineInv s0 := by
  refine ⟨by decide, by decide, by decide, by decide, ⟨by decide, by decide⟩, by simp [s0, testState, State.reset],
    ⟨by decide, by decide⟩, fun _ => rfl⟩

theorem s2_inv : MachineInv s2 := by
  refine ⟨by decide, by decide, by decide, by decide, ⟨by decide, by decide⟩, by simp [s2, testState, State.reset],
    ⟨by decide, by decide⟩, fun _ => rfl⟩

theorem openMain_inv : MachineInv openMain := by
  refine ⟨by decide, by decide, by decide, by decide, ⟨by decide, by decide⟩, ?_, ⟨by decide, by decide⟩, by decide⟩
  intro l hl
  simp only [openMain, List.mem_singleton] at hl
  subst hl
  exact ⟨by decide, by decide⟩

theorem s0_matched : scaleMatched { s0 with bus := testBus 0 0 0 0x03 0 0 } := rfl

theorem witness_DecodingAnEncodedCommandGivesItBack :
    (Instr.wrc .d 7 true).wf = true ∧ (Instr.wr .b 0).wf = true ∧ (Instr.rd .c 7).wf = true ∧
      (Instr.setpwm .c .hz30).wf = true ∧ Instr.msread.wf = true := by decide
theorem witness_DecodedCommandEncodesToItsWord : decode 0x1780#16 = .cmd (.wrc .d 7 true) := by decide
theorem witness_OpcodeMapSelectsExactlyTheLegalWords :
    (⟨none, 0xE000, 0xE000, false, false, 0⟩ : OpcodeRow) ∈ opcodeMap := by decide
theorem witness_IllegalWordsAndTheirReasons :
    ∃ s : State, s.refused = none ∧ s.queue = [.command .main 0x1800 0] ∧ mayIssue s.tx .main = true ∧
      decode 0x1800#16 = .illegal .reservedBitsOrPort :=
  ⟨{ s0 with queue := [.command .main 0x1800 0] }, rfl, rfl, rfl, by decide⟩
theorem witness_ByteImageGivesTheCommandBack : (Instr.rd .b 7).wf = true := by decide
theorem witness_StepRunsTheDecodedCommand :
    ∃ s : State, s.refused = none ∧ s.queue = [.command (.irq 0) 0x3700 0x2A] ∧ mayIssue s.tx (.irq 0) = true ∧
      s.tx ≠ [] ∧ decode 0x3700#16 = .cmd (.wr .d 7) ∧ decodeTableWord 16 0x3700 = some (.wr .d 7) :=
  ⟨{ openMain with queue := [.command (.irq 0) 0x3700 0x2A] }, rfl, rfl, by decide, by decide, by decide, by decide⟩
theorem witness_IllegalCommandIsRefusedForGood :
    (∃ s : State, s.refused = none ∧ s.queue = [.command .main 0xE000 0] ∧ mayIssue s.tx .main = true ∧
      decode 0xE000#16 = .illegal .reservedOpcode) ∧ ∃ s : State, s.refused = some .reservedBits :=
  ⟨⟨{ s0 with queue := [.command .main 0xE000 0] }, rfl, rfl, rfl, by decide⟩,
    ⟨{ s0 with refused := some .reservedBits }, rfl⟩⟩
theorem witness_EveryContextMayIssueEveryCommand :
    ∃ s : State, MachineInv s ∧ s.refused = none ∧ s.tx = [] ∧ (Instr.setpwm .b .hz30).wf = true ∧
      s.queue = [.command (.irq 3) (encode (.setpwm .b .hz30)) 0] :=
  ⟨{ s2 with queue := [.command (.irq 3) (encode (.setpwm .b .hz30)) 0] }, s2_inv.of_same rfl rfl rfl rfl, rfl, rfl,
    rfl, rfl⟩
theorem witness_HandlerCommandsNestInsideOpenTransactions :
    (∃ s : State, s.refused = none ∧ s.queue = [.command (.irq 0) 0x0700 0] ∧ s.phase (.irq 0) = .idle ∧
      s.phase .main = .readDone ∧ decode 0x0700#16 = .cmd (.wrc .b 7 false)) ∧
    (∃ t, runAlone (.wrc .b 7 false) openMain = .next t) ∧
    (∃ s : State, s.refused = none ∧ s.queue = [.resume] ∧ s.tx = [⟨.main, 0, 0x01, none⟩] ∧
      s.bus.read 0 = some 0x00) ∧
    (∃ s : State, s.refused = none ∧ s.queue = [.command .main 0x0700 0] ∧ s.tx = [⟨.main, 0, 0x01, none⟩] ∧
      s.bus.read 0 = some 0x00) :=
  ⟨⟨{ openMain with queue := [.command (.irq 0) 0x0700 0] }, rfl, rfl, by decide, by decide, by decide⟩, ⟨_, rfl⟩,
    ⟨{ openMain with queue := [.resume] }, rfl, rfl, rfl, by decide⟩,
    ⟨{ openMain with queue := [.command .main 0x0700 0] }, rfl, rfl, rfl, by decide⟩⟩
theorem witness_WaitingCommandIsTakenInBoundedSteps :
    ∃ s : State, MachineInv s ∧ s.refused = none ∧ s.queue = [.command .main 0x0700 0] ∧ mayIssue s.tx .main = false :=
  ⟨{ openMain with queue := [.command .main 0x0700 0] }, openMain_inv.of_same rfl rfl rfl rfl, rfl, rfl, by decide⟩
theorem witness_OtherWriterMayWriteAtAnyStep :
    ∃ s : State, s.refused = none ∧ s.queue = [.write (.tcr .c) 0x13] ∧ s.tx ≠ [] ∧
      s.bus.read (regAddr s.params (.tcr .c)) = some 0xA8 :=
  ⟨{ openMain with queue := [.write (.tcr .c) 0x13] }, rfl, rfl, by decide, by decide⟩
theorem witness_BlockResetEffect :
    ∃ s : State, s.refused = none ∧ s.queue = [.reset, .command .main 0x8000 0] ∧ s.tx ≠ [] ∧
      decode 0x8000#16 = .cmd .msread :=
  ⟨{ openMain with queue := [.reset, .command .main 0x8000 0] }, rfl, rfl, by decide, by decide⟩

theorem witness_WrcClearsOrSetsItsPinBit :
    (s0.params.wf = true ∧ s0.bus.read (outAddr s0.params .d) = some 0x5A ∧ s0.params.atomic = true) ∧
    (s2.params.wf = true ∧ s2.bus.read (outAddr s2.params .d) = some 0x5A ∧ s2.params.atomic = false) ∧
    ((0x1F80#16).extractLsb 15 13).toNat = 0 ∧ ((0x1F80#16).extractLsb 12 11).toNat = 3 ∧
    ((0x0001#16).extractLsb 15 13).toNat = 0 ∧ ((0x0001#16).extractLsb 6 0).toNat ≠ 0 := by decide
theorem witness_WrClearsOrSetsItsPinBitByDin :
    (s0.params.wf = true ∧ s0.bus.read (outAddr s0.params .b) = some 0x00 ∧ s0.params.atomic = true) ∧
    (s2.params.wf = true ∧ s2.bus.read (outAddr s2.params .c) = some 0xFF ∧ s2.params.atomic = false) ∧
    ((0x3800#16).extractLsb 15 13).toNat = 1 ∧ ((0x3800#16).extractLsb 12 11).toNat = 3 ∧
    ((0x2380#16).extractLsb 15 13).toNat = 1 ∧ ((0x2380#16).extractLsb 7 0).toNat ≠ 0 := by decide
theorem witness_RdReturnsTheComplementOfTheMaskedInput :
    (looped.wf = true ∧ looped.loopback = true ∧ bus0.read (outAddr looped .d) = some 0x5A) ∧
    (s0.params.wf = true ∧ s0.params.loopback = false ∧ s0.pins = [0x08]) ∧
    (State.reset.params.wf = true ∧ State.reset.params.loopback = false ∧ State.reset.pins = []) ∧
    ((0x5F00#16).extractLsb 15 13).toNat = 2 ∧ ((0x5F00#16).extractLsb 12 11).toNat = 3 ∧
    ((0x4301#16).extractLsb 15 13).toNat = 2 ∧ ((0x4301#16).extractLsb 7 0).toNat ≠ 0 := by decide
theorem witness_SetpwmWritesTheDividerCode :
    (s0.params.wf = true ∧ s0.bus.read s0.params.addrTcrA = some 0xA8 ∧ s0.params.atomic = true) ∧
    (s2.params.wf = true ∧ s2.bus.read s2.params.addrTcrC = some 0xA8 ∧ s2.params.atomic = false) ∧
    (legacy.wf = true ∧ legacy.legacyTimerB = true ∧ bus0.read legacy.addrTcrA = some 0xA8) ∧
    ((0x7800#16).extractLsb 15 13).toNat = 3 ∧ ((0x7800#16).extractLsb 12 11).toNat = 3 ∧
    ((0x6700#16).extractLsb 15 13).toNat = 3 ∧ ((0x6700#16).extractLsb 10 8).toNat = 7 ∧
    ((0x6201#16).extractLsb 15 13).toNat = 3 ∧ ((0x6201#16).extractLsb 7 0).toNat ≠ 0 := by decide
theorem witness_MsreadReturnsTheScaledSample :
    s0.ticks = [800] ∧ State.reset.ticks = [] ∧ ((0x9000#16).extractLsb 15 13).toNat = 4 ∧
    ((0x9000#16).extractLsb 12 0).toNat ≠ 0 := by decide

theorem witness_CommandFrame :
    (∃ t, exec (.wrc .b 7 true) s0 = .next t) ∧ (∃ t, exec (.setpwm .b .hz30) s2 = .next t) ∧
      (∃ t, exec (.rd .d 0) s0 = .next t) ∧ (∃ t, exec .msread s0 = .next t) ∧ s0.params.wf = true :=
  ⟨⟨_, rfl⟩, ⟨_, rfl⟩, ⟨_, rfl⟩, ⟨_, rfl⟩, by decide⟩
theorem witness_SecondStepFrame :
    openMain.tx = [⟨.main, 0, 0x01, none⟩] ∧ ∃ t, resumeTop openMain = .next t := ⟨rfl, _, rfl⟩
theorem witness_PinWritesKeepTheOtherBits :
    (s0.params.wf = true ∧ ∃ t, runAlone (.wr .c 7) s0 = .next t) ∧
      (s2.params.wf = true ∧ ∃ t, runAlone (.wrc .d 0 true) s2 = .next t) :=
  ⟨⟨by decide, _, rfl⟩, ⟨by decide, _, rfl⟩⟩
theorem witness_LoopbackRoundTrip :
    looped.wf = true ∧ looped.loopback = true ∧ (testState looped bus0).bus.read (outAddr looped .d) = some 0x5A ∧
      false = decide ((testState looped bus0).din ≠ 0) := by decide
theorem witness_CommandsAreIdempotent :
    (s2.params.wf = true ∧ (storeAddr s2.params (.setpwm .a .hz30)).isSome = true ∧
      ∃ t, runAlone (.setpwm .a .hz30) s2 = .next t) ∧
    (storeAddr s0.params .msread = none ∧ ∃ t, exec .msread s0 = .next t) :=
  ⟨⟨by decide, rfl, _, rfl⟩, rfl, _, rfl⟩
theorem witness_SetpwmKeepsTheUpperBits :
    (s0.params.wf = true ∧ ∃ t, runAlone (.setpwm .c .hz30) s0 = .next t) ∧
      (legacy.wf = true ∧ ∃ t, runAlone (.setpwm .b .hz31k) (testState legacy bus0) = .next t) :=
  ⟨⟨by decide, _, rfl⟩, by decide, _, rfl⟩
theorem witness_OnlyPrimaryTimerWritesScale :
    (∃ t, runAlone (.setpwm .a .hz30) s0 = .next t) ∧ (∃ t, runAlone (.setpwm .b .hz30) s2 = .next t) :=
  ⟨⟨_, rfl⟩, ⟨_, rfl⟩⟩
theorem witness_ScaleStaysInOneToFive :
    ∃ s t : State, ScaleInv s ∧ step s = .next t ∧ t.scale ≠ s.scale :=
  ⟨s0.withFetchWord 16 0x6600, _, ⟨⟨by decide, by decide⟩, by simp [s0, testState, State.reset, State.withFetchWord]⟩,
    rfl, by decide⟩
theorem witness_ScaleChangesInOneWholeWrite :
    (∃ s t : State, step s = .next t ∧ t.scale ≠ s.scale ∧ s.tx = []) ∧
    (∃ s t : State, step s = .next t ∧ t.scale ≠ s.scale ∧ s.queue = [.reset]) :=
  ⟨⟨s0.withFetchWord 16 0x6600, _, rfl, by decide, rfl⟩,
    ⟨{ s0 with scale := 5, queue := [.reset] }, _, rfl, by decide, rfl⟩⟩
theorem witness_MsreadArithmetic :
    ∃ s1 s5 : State, s1.ticks = [0xFFFFFFFF] ∧ s1.scale = 1 ∧ s5.ticks = [0xFFFFFFFF] ∧ s5.scale = 5 :=
  ⟨{ s0 with ticks := [0xFFFFFFFF], scale := 1 }, { s0 with ticks := [0xFFFFFFFF], scale := 5 }, rfl, rfl, rfl, rfl⟩
theorem witness_ScaleFallbackIsIdentityAndUnreachable :
    (∃ s : State, s.ticks = [800] ∧ s.scale = 0) ∧ (∃ s : State, s.ticks = [800] ∧ s.scale = 7) ∧
      ∃ t, ScaleInv s0 ∧ step s0 = .next t :=
  ⟨⟨{ s0 with scale := 0 }, rfl, rfl⟩, ⟨{ s0 with scale := 7 }, rfl, rfl⟩, _,
    ⟨⟨by decide, by decide⟩, by simp [s0, testState, State.reset]⟩, rfl⟩
theorem witness_ScaleThreeIsIdentity :
    ∃ s : State, s.ticks = [800] ∧ (s.scale = 1 ∨ s.scale = 2) := ⟨{ s0 with scale := 2 }, rfl, .inr rfl⟩
theorem witness_MsreadFollowsTheNewScale :
    (∃ t, runAlone (.setpwm .a .hz1k) s2 = .next t) ∧ s2.ticks = [800] := ⟨⟨_, rfl⟩, rfl⟩
theorem witness_ScaleMatchesPrimaryDivider :
    (∃ s : State, scaleMatched s ∧ s.bus.read s.params.addrTcrA = some 0x03 ∧ s.ticks = [800]) ∧
    (∃ t, runAlone (.setpwm .a .hz30) s0 = .next t) ∧
    ((0x04#8).extractLsb 2 0 ≠ s0.scale ∧ ∃ t, deviceWrite s0 (.tcr .a) 0x04 = .next t) ∧
    (legacy.legacyTimerB = true ∧ dividerCode .b .hz122 ≠ (testState legacy bus0).scale ∧
      ∃ t, runAlone (.setpwm .b .hz122) (testState legacy bus0) = .next t) :=
  ⟨⟨_, s0_matched, by decide, rfl⟩, ⟨_, rfl⟩, ⟨by decide, _, rfl⟩, rfl, by decide, _, rfl⟩
theorem witness_LegacyTimerBMismatch :
    legacy.wf = true ∧ legacy.legacyTimerB = true ∧ (testState legacy bus0).params = legacy ∧
      dividerCode .b .hz122 ≠ (testState legacy bus0).scale ∧
      ∃ t, runAlone (.setpwm .b .hz122) (testState legacy bus0) = .next t :=
  ⟨by decide, rfl, rfl, by decide, _, rfl⟩
theorem witness_ScaleMatchIsKeptByEveryOtherStep :
    ∃ s t : State, MachineInv s ∧ s.params.legacyTimerB = false ∧ scaleMatched s ∧
      s.queue = [.command .main (encode (.setpwm .a .hz30)) 0] ∧ step s = .next t := by
  refine ⟨{ s0 with bus := testBus 0 0 0 0x03 0 0, queue := [.command .main (encode (.setpwm .a .hz30)) 0] }, _, ?_, rfl,
    s0_matched, rfl, rfl⟩
  exact ⟨by decide, by decide, by decide, by decide, ⟨by decide, by decide⟩, by simp [s0, testState, State.reset],
    ⟨by decide, by decide⟩, fun _ => rfl⟩
theorem witness_TwoStepReadModifyWrite :
    (s2.params.wf = true ∧ s2.params.atomic = false ∧ (Instr.setpwm .a .hz30).wf = true ∧
      storeAddr s2.params (.setpwm .a .hz30) = some 6 ∧ s2.bus.read 6 = some 0xA8) ∧
    ∃ t, MachineInv s0 ∧ s0.params.atomic = true ∧ step s0 = .next t :=
  ⟨by decide, _, s0_inv, rfl, rfl⟩
theorem witness_MsreadBetweenStepsSeesTheOldPair :
    ∃ s : State, s.params.wf = true ∧ s.params.atomic = false ∧ s.refused = none ∧ s.tx = [] ∧ Ctx.main ≠ .irq 0 ∧
      s.queue = [.command .main (encode (.setpwm .a .hz30)) 0, .command (.irq 0) (encode .msread) 0, .resume] ∧
      s.bus.read s.params.addrTcrA = some 0xA8 ∧ s.ticks = [800] :=
  ⟨{ s2 with queue := [.command .main (encode (.setpwm .a .hz30)) 0, .command (.irq 0) (encode .msread) 0, .resume] },
    by decide, rfl, rfl, rfl, by decide, rfl, by decide, rfl⟩
theorem witness_LostUpdateBetweenTheHalves :
    (s2.params.wf = true ∧ s2.params.atomic = false ∧ (Instr.wrc .b 0 false).wf = true ∧
      storeAddr s2.params (.wrc .b 0 false) = some 0 ∧ s2.bus.read 0 = some 0x00 ∧ regAddr s2.params (.out .b) = 0 ∧
      (Instr.wr .b 7).wf = true ∧ storeAddr s2.params (.wr .b 7) = some 0) ∧
    ∃ t, s0.params.atomic = true ∧ exec (.wrc .b 0 false) s0 = .next t :=
  ⟨by decide, _, rfl, rfl⟩
theorem witness_UndisturbedTwoStepsEqualOneStep :
    s2.params.atomic = false ∧ ∃ t, runAlone (.setpwm .a .hz30) s2 = .next t := ⟨rfl, _, rfl⟩
theorem witness_BusIsSequentiallyConsistent :
    s0.trace = [] ∧ SeqConsistent bus0 s0 ∧ ∃ t, step s0 = .next t :=
  ⟨rfl, ⟨fun _ => rfl, trivial⟩, _, rfl⟩
theorem witness_CommandsMakeTheirAccessesInOrder : ∃ t, runAlone (.setpwm .a .hz30) s2 = .next t := ⟨_, rfl⟩
theorem witness_EveryStepKeepsTheInvariant :
    ∃ s t : State, MachineInv s ∧ s.tx ≠ [] ∧ step s = .next t :=
  ⟨openMain, _, openMain_inv, by decide, rfl⟩
theorem witness_EveryLegalCommandCompletes :
    MachineInv openMain ∧ (Instr.rd .b 7).wf = true ∧ openMain.refused = none := ⟨openMain_inv, by decide, rfl⟩
theorem witness_AccessesStayOnTheNineAddresses :
    ∃ s t : State, MachineInv s ∧ step s = .next t ∧ t.trace ≠ [] :=
  ⟨openMain, _, openMain_inv, rfl, by decide⟩
theorem witness_NoStepChangesTheParameters : ∃ t, step openMain = .next t := ⟨_, rfl⟩
theorem witness_BusContentsNeverChangeTheCommands :
    ∃ s t t' : State, step s = .next t ∧ step { s with bus := testBus 1 2 3 4 5 6 } = .next t' ∧ s.queue ≠ [] :=
  ⟨s0.withFetchWord 16 0x0300, _, _, rfl, rfl, by decide⟩
theorem witness_IndexCountsCompletedCommands : ∃ t, runAlone (.wr .b 0) s2 = .next t := ⟨_, rfl⟩
theorem witness_PseudoCommandsDriveThePin :
    s0.params.wf = true ∧ (∃ t, runAlone (.pinLow .c 7) s0 = .next t) ∧ ∃ t, runAlone (.pinHigh .c 7) s2 = .next t :=
  ⟨by decide, ⟨_, rfl⟩, _, rfl⟩
theorem witness_DividerTableProperties : (freqCode .hz31k).toNat ≤ (freqCode .hz30).toNat ∧ dividerCode .c .hz30 = 7 := by
  decide

end Sys2Proof.Tests
end

section
/-! SUPPORT. SCALE stays in 1 to 5 (R22): what keeps `ScaleInv`, one lemma for each update and each kind of step. -/

namespace Sys2Proof.Machine

/-- `ScaleInv` looks at SCALE and the latches only. -/
theorem ScaleInv.of_same {s t : State} (h : ScaleInv s) (hscale : t.scale = s.scale) (htx : t.tx = s.tx) :
    ScaleInv t := by
  unfold ScaleInv
  rw [hscale, htx]
  exact h

/-- With no transaction open only SCALE counts. -/
theorem ScaleInv.of_no_latch {s : State} (hscale : scaleLegal s.scale) (htx : s.tx = []) : ScaleInv s :=
  ⟨hscale, by simp [htx]⟩

theorem scaleLegal_three : scaleLegal 3 := ⟨by decide, by decide⟩

/-- The only SCALE write of a command is that of SETPWM on Timer A, whose codes are legal (R103, R106). -/
theorem scaleOf_legal {i : Instr} {d : Code} (h : scaleOf i = some d) : scaleLegal d := by
  obtain ⟨f, -, rfl⟩ := scaleOf_eq_some h
  exact dividerCode_a_legal f

section
variable {s : State} {d : Option Code} (hs : ScaleInv s) (hd : ∀ x, d = some x → scaleLegal x)
include hs hd

/-- A write half whose SCALE write, if any, is legal. -/
theorem ScaleInv.committed (a : Nat) (v : Byte) : ScaleInv (committed s a v d) := by
  obtain ⟨hscale, hlatches⟩ := hs
  refine ⟨?_, by simpa using hlatches⟩
  cases d with
  | none => simpa using hscale
  | some x => simpa using hd x rfl

/-- A first step whose latch carries a legal SCALE write, if any. -/
theorem ScaleInv.openLatch (a : Nat) (v : Byte) : ScaleInv (openLatch s a v d) := by
  obtain ⟨hscale, hlatches⟩ := hs
  refine ⟨by simpa using hscale, ?_⟩
  rw [openLatch_tx, List.forall_mem_cons]
  exact ⟨hd, hlatches⟩

end

theorem rmw_keeps_scaleInv {s t : State} {a : Nat} {f : Byte → Byte} {d : Option Code} (h : rmw s a f d = .next t)
    (hs : ScaleInv s) (hd : ∀ x, d = some x → scaleLegal x) : ScaleInv t := by
  obtain ⟨old, u, hread, hcase⟩ := rmw_next h
  obtain ⟨-, hscale, htx, -⟩ := regRead_same hread
  have hu : ScaleInv u := hs.of_same hscale htx
  obtain ⟨-, -, rfl⟩ | ⟨-, rfl⟩ := hcase
  · exact hu.committed hd a (f old)
  · exact hu.openLatch hd a (f old)

theorem exec_keeps_scaleInv {i : Instr} {s t : State} (h : exec i s = .next t) (hs : ScaleInv s) : ScaleInv t := by
  obtain ⟨-, ⟨a, -, hrmw⟩ | ⟨p, n, v, u, -, hread, rfl⟩ | ⟨-, rfl⟩⟩ := exec_next h
  · exact rmw_keeps_scaleInv hrmw hs (fun _ => scaleOf_legal)
  · obtain ⟨-, hscale, htx, -⟩ := regRead_same hread
    exact hs.of_same hscale htx
  · exact hs.of_same (by simp) (by simp)

/-- The second step writes to SCALE what its latch carried. -/
theorem resumeTop_keeps_scaleInv {s t : State} (h : resumeTop s = .next t) (hs : ScaleInv s) : ScaleInv t := by
  obtain ⟨-, rfl⟩ | ⟨l, rest, htx, -, rfl⟩ := resumeTop_next h
  · exact hs.of_same rfl rfl
  · obtain ⟨hscale, hlatches⟩ := hs
    rw [htx, List.forall_mem_cons] at hlatches
    obtain ⟨hl, hrest⟩ := hlatches
    have hpopped : ScaleInv { s with tx := rest } := ⟨hscale, hrest⟩
    exact hpopped.committed hl l.addr l.value

theorem deviceWrite_keeps_scaleInv {s t : State} {r : DeviceReg} {v : Byte} (h : deviceWrite s r v = .next t)
    (hs : ScaleInv s) : ScaleInv t := by
  obtain ⟨-, rfl⟩ := deviceWrite_next h
  exact hs.of_same rfl rfl

theorem step_keeps_scaleInv {s t : State} (h : step s = .next t) (hs : ScaleInv s) : ScaleInv t := by
  obtain ⟨-, hcase⟩ := step_next h
  obtain ⟨_, _, _, _, _, -, -, -, rfl⟩ | ⟨_, _, _, _, _, -, -, -, hexec⟩ | ⟨hresume, -⟩ | ⟨_, -, hresume⟩ |
    ⟨_, _, _, -, hwrite⟩ | ⟨_, -, rfl⟩ := hcase
  · exact hs.of_same rfl rfl
  · exact exec_keeps_scaleInv hexec (hs.of_same rfl rfl)
  · exact resumeTop_keeps_scaleInv hresume hs
  · exact resumeTop_keeps_scaleInv hresume (hs.of_same rfl rfl)
  · exact deviceWrite_keeps_scaleInv hwrite (hs.of_same rfl rfl)
  · exact ScaleInv.of_no_latch scaleLegal_three rfl

theorem reset_scaleInv : ScaleInv State.reset := ScaleInv.of_no_latch scaleLegal_three rfl

/-- Settles O31: reset establishes `ScaleInv` and every step keeps it, by cases on what a step can do. -/
theorem scaleStaysInOneToFive : Obligations.ScaleStaysInOneToFive :=
  ⟨reset_scaleInv, fun _ _ hs h => step_keeps_scaleInv h hs⟩

end Sys2Proof.Machine
end

section
/-! SUPPORT. The register bus is sequentially consistent (R51): one lemma for each operation that adds to the record of
accesses, and one for each kind of step. -/

namespace Sys2Proof.Machine

/-- A write, by the block or by another writer, is the last write to its own address and to no other. -/
theorem valueAfter_write {a : Nat} {v : Byte} {x : Access} (hx : x = .writeReg a v ∨ x = .otherWrite a v)
    (launch : Memory) (order : List Access) (b : Nat) :
    valueAfter launch (x :: order) b = if b = a then some v else valueAfter launch order b := by
  obtain rfl | rfl := hx <;> by_cases h : b = a <;> simp [valueAfter, lastWrite, h]

/-- The reads of an order do not look at a write that follows them. -/
theorem readsFollowOrder_write {a : Nat} {v : Byte} {x : Access} (hx : x = .writeReg a v ∨ x = .otherWrite a v)
    (p : Params) (launch : Memory) (order : List Access) :
    readsFollowOrder p launch (x :: order) ↔ readsFollowOrder p launch order := by
  obtain rfl | rfl := hx <;> rfl

/-- What R51 asks of a read of a device register. -/
theorem readsFollowOrder_readReg_of_reg {p : Params} {launch : Memory} {order : List Access} {a : Nat} {v : Byte}
    (hreg : inPort p a = none) (hreads : readsFollowOrder p launch order) (hv : valueAfter launch order a = some v) :
    readsFollowOrder p launch (.readReg a v :: order) := by
  simpa [readsFollowOrder, hreg] using ⟨hreads, hv⟩

/-- What R27 and R51 ask of a read of an input register. -/
theorem readsFollowOrder_readReg_of_in {p : Params} {launch : Memory} {order : List Access} {a : Nat} {v : Byte}
    {q : Port} (hin : inPort p a = some q) (hreads : readsFollowOrder p launch order)
    (hv : p.loopback = true → valueAfter launch order (outAddr p q) = some v) :
    readsFollowOrder p launch (.readReg a v :: order) := by
  simpa [readsFollowOrder, hin] using ⟨hreads, hv⟩

/-- `SeqConsistent` looks at the parameters, the bus and the record only. -/
theorem SeqConsistent.of_same {launch : Memory} {s t : State} (hs : SeqConsistent launch s)
    (hparams : t.params = s.params) (hbus : t.bus = s.bus) (htrace : t.trace = s.trace) : SeqConsistent launch t := by
  obtain ⟨hnow, hreads⟩ := hs
  constructor
  · rwa [hbus, htrace]
  · rwa [hparams, htrace]

/-- With no access yet, what the bus holds is what it was launched with. -/
theorem SeqConsistent.of_empty_trace {s : State} (h : s.trace = []) : SeqConsistent s.bus s := by
  constructor
  · rw [h]; exact fun _ => rfl
  · rw [h]; trivial

/-- A write to the bus that is recorded as one. -/
theorem SeqConsistent.write {launch : Memory} {s t : State} {a : Nat} {v : Byte} {x : Access}
    (hs : SeqConsistent launch s) (hx : x = .writeReg a v ∨ x = .otherWrite a v) (hparams : t.params = s.params)
    (hbus : t.bus = s.bus.write a v) (htrace : t.trace = x :: s.trace) : SeqConsistent launch t := by
  obtain ⟨hnow, hreads⟩ := hs
  constructor
  · intro b
    rw [hbus, htrace, Memory.read_write, valueAfter_write hx, hnow]
  · rw [hparams, htrace]
    exact (readsFollowOrder_write hx _ _ _).2 hreads

/-- A SCALE write in the order is no bus access. -/
theorem SeqConsistent.putScale {launch : Memory} {s : State} (hs : SeqConsistent launch s) (d : Option Code) :
    SeqConsistent launch (putScale s d) := by
  obtain ⟨hnow, hreads⟩ := hs
  cases d with
  | none => exact ⟨hnow, hreads⟩
  | some d => exact ⟨hnow, hreads⟩

/-- Nor is a sample of the tick source. -/
theorem SeqConsistent.msRaw {launch : Memory} {s : State} (hs : SeqConsistent launch s) :
    SeqConsistent launch (msRaw s).2 := by
  obtain ⟨hnow, hreads⟩ := hs
  constructor
  · rw [msRaw_bus, msRaw_trace]; exact hnow
  · rw [msRaw_params, msRaw_trace]; exact hreads

/-- A read returns what the bus holds, or a draw: what its place in the order lets it return. -/
theorem regRead_follows_order {launch : Memory} {s u : State} {a : Nat} {v : Byte} (h : regRead s a = .ok (v, u))
    (hs : SeqConsistent launch s) : readsFollowOrder s.params launch (.readReg a v :: s.trace) := by
  obtain ⟨hnow, hreads⟩ := hs
  cases hp : inPort s.params a with
  | none =>
    obtain ⟨hv, -⟩ := readCell_ok.1 ((regRead_reg hp).symm.trans h)
    exact readsFollowOrder_readReg_of_reg hp hreads (hnow a ▸ hv)
  | some q =>
    refine readsFollowOrder_readReg_of_in hp hreads fun hl => ?_
    obtain ⟨hv, -⟩ := readCell_ok.1 ((regRead_loopback hp hl).symm.trans h)
    exact hnow _ ▸ hv

theorem regRead_keeps_seqConsistent {launch : Memory} {s u : State} {a : Nat} {v : Byte}
    (h : regRead s a = .ok (v, u)) (hs : SeqConsistent launch s) : SeqConsistent launch u := by
  have hfollows := regRead_follows_order h hs
  rw [regRead_frame h]
  exact ⟨hs.now, hfollows⟩

theorem SeqConsistent.committed {launch : Memory} {s : State} (hs : SeqConsistent launch s) (a : Nat) (v : Byte)
    (d : Option Code) : SeqConsistent launch (committed s a v d) := by
  have hwritten : SeqConsistent launch ({ s with bus := s.bus.write a v }.log (.writeReg a v)) :=
    hs.write (.inl rfl) rfl rfl rfl
  exact (hwritten.putScale d).of_same rfl rfl rfl

theorem rmw_keeps_seqConsistent {launch : Memory} {s t : State} {a : Nat} {f : Byte → Byte} {d : Option Code}
    (h : rmw s a f d = .next t) (hs : SeqConsistent launch s) : SeqConsistent launch t := by
  obtain ⟨old, u, hread, hcase⟩ := rmw_next h
  have hu : SeqConsistent launch u := regRead_keeps_seqConsistent hread hs
  obtain ⟨-, -, rfl⟩ | ⟨-, rfl⟩ := hcase
  · exact hu.committed a (f old) d
  · exact hu.of_same rfl rfl rfl

theorem exec_keeps_seqConsistent {launch : Memory} {i : Instr} {s t : State} (h : exec i s = .next t)
    (hs : SeqConsistent launch s) : SeqConsistent launch t := by
  obtain ⟨-, ⟨a, -, hrmw⟩ | ⟨p, n, v, u, -, hread, rfl⟩ | ⟨-, rfl⟩⟩ := exec_next h
  · exact rmw_keeps_seqConsistent hrmw hs
  · exact (regRead_keeps_seqConsistent hread hs).of_same rfl rfl rfl
  · exact hs.msRaw.of_same rfl rfl rfl

theorem resumeTop_keeps_seqConsistent {launch : Memory} {s t : State} (h : resumeTop s = .next t)
    (hs : SeqConsistent launch s) : SeqConsistent launch t := by
  obtain ⟨-, rfl⟩ | ⟨l, rest, -, -, rfl⟩ := resumeTop_next h
  · exact hs.of_same rfl rfl rfl
  · have hpopped : SeqConsistent launch { s with tx := rest } := hs.of_same rfl rfl rfl
    exact hpopped.committed l.addr l.value l.scale

theorem deviceWrite_keeps_seqConsistent {launch : Memory} {s t : State} {r : DeviceReg} {v : Byte}
    (h : deviceWrite s r v = .next t) (hs : SeqConsistent launch s) : SeqConsistent launch t := by
  obtain ⟨-, rfl⟩ := deviceWrite_next h
  exact hs.write (.inr rfl) rfl rfl rfl

theorem step_keeps_seqConsistent {launch : Memory} {s t : State} (h : step s = .next t)
    (hs : SeqConsistent launch s) : SeqConsistent launch t := by
  obtain ⟨-, hcase⟩ := step_next h
  obtain ⟨_, _, _, _, _, -, -, -, rfl⟩ | ⟨_, _, _, _, _, -, -, -, hexec⟩ | ⟨hresume, -⟩ | ⟨_, -, hresume⟩ |
    ⟨_, _, _, -, hwrite⟩ | ⟨_, -, rfl⟩ := hcase
  · exact hs.of_same rfl rfl rfl
  · exact exec_keeps_seqConsistent hexec (hs.of_same rfl rfl rfl)
  · exact resumeTop_keeps_seqConsistent hresume hs
  · exact resumeTop_keeps_seqConsistent hresume (hs.of_same rfl rfl rfl)
  · exact deviceWrite_keeps_seqConsistent hwrite (hs.of_same rfl rfl rfl)
  · exact hs.of_same rfl rfl rfl

/-- Settles O44: an empty record is consistent with the bus as it stands, and every step keeps `SeqConsistent`, by cases on
what a step can do. -/
theorem busIsSequentiallyConsistent : Obligations.BusIsSequentiallyConsistent :=
  ⟨fun _ => SeqConsistent.of_empty_trace, fun _ _ _ hs h => step_keeps_seqConsistent h hs⟩

end Sys2Proof.Machine
end

section
/-! SUPPORT. The other register writers (R50): what their step does when a register stands at its address. -/

namespace Sys2Proof.Machine

theorem storesOnly_of_write {s t : State} {a : Nat} {v : Byte} (h : t.bus = s.bus.write a v) : storesOnly s t a v := by
  refine ⟨?_, fun b hb => ?_⟩
  · rw [h, Memory.read_write_same]
  · rw [h, Memory.read_write_other _ _ _ _ hb]

/-- The converse of `deviceWrite_next`. -/
theorem deviceWrite_of_isSome {s : State} {r : DeviceReg} (v : Byte)
    (h : (s.bus.read (regAddr s.params r)).isSome = true) :
    deviceWrite s r v = .next { s with
      bus := s.bus.write (regAddr s.params r) v, response := none,
      trace := .otherWrite (regAddr s.params r) v :: s.trace } := by
  unfold deviceWrite
  rw [storeCell_ok.2 ⟨h, rfl⟩]
  rfl

theorem step_of_write {s : State} {r : DeviceReg} {v : Byte} {rest : List Event} (hrefused : s.refused = none)
    (hqueue : s.queue = .write r v :: rest) : step s = deviceWrite { s with queue := rest } r v := by
  simp [step, turn, hrefused, hqueue]

/-- Settles O12: the step is the writer's `deviceWrite`, which looks at no latch. -/
theorem otherWriterMayWriteAtAnyStep : Obligations.OtherWriterMayWriteAtAnyStep := by
  intro s r v x rest hrefused hqueue hmapped
  have hstep := (step_of_write hrefused hqueue).trans (deviceWrite_of_isSome v (by simp [hmapped]))
  exact ⟨_, hstep, storesOnly_of_write rfl, rfl⟩

end Sys2Proof.Machine
end

section
/-! SUPPORT. Commands issued twice (R47), and the accesses a command makes (R41, R49). -/

namespace Sys2Proof.Machine

/-- A command that stores, issued again in the state in which it has committed, stores the byte and writes the SCALE that
stand there. -/
theorem runAlone_twice {i : Instr} {s t : State} {a : Nat} (hp : s.params.wf = true)
    (ha : storeAddr s.params i = some a) (h : runAlone i s = .next t) :
    ∃ u, runAlone i t = .next u ∧ (∀ b, u.bus.read b = t.bus.read b) ∧ u.scale = t.scale := by
  obtain ⟨hw, old, hold, rfl⟩ := runAlone_store_next hp ha h
  have hreg : inPort s.params a = none := inPort_of_reg hp (storeAddr_mem _ _ _ ha)
  refine ⟨_, runAlone_store (old := storeByte s.din old i) hw (by simpa using ha) (by simpa using hreg) (by simp),
    fun b => ?_, ?_⟩
  · simp only [committed_bus, State.log_bus, committed_din, State.log_din, storeByte_idem]
    by_cases hb : b = a <;> simp [Memory.read_write, hb]
  · cases hscale : scaleOf i <;> simp

/-- RD and MSREAD leave the bus, SCALE and the latches alone. -/
theorem exec_same_of_no_store {i : Instr} {s t : State} (hno : storeAddr s.params i = none) (h : exec i s = .next t) :
    t.bus = s.bus ∧ t.scale = s.scale ∧ t.tx = s.tx := by
  obtain ⟨-, ⟨a, ha, -⟩ | ⟨p, n, v, u, -, hread, rfl⟩ | ⟨-, rfl⟩⟩ := exec_next h
  · rw [hno] at ha; cases ha
  · obtain ⟨-, hscale, htx, hbus, -⟩ := regRead_same hread
    exact ⟨hbus, hscale, htx⟩
  · simp

/-- Settles O24: the stored byte is a fixed point of the command's update (`storeByte_idem`). -/
theorem commandsAreIdempotent : Obligations.CommandsAreIdempotent := by
  refine ⟨fun i s t hp hstores h => ?_, fun i s t hno h => exec_same_of_no_store hno h⟩
  obtain ⟨a, ha⟩ := Option.isSome_iff_exists.1 hstores
  exact runAlone_twice hp ha h

theorem mem_addrs_of_reg {p : Params} {a : Nat} (h : a ∈ p.regAddrs) : a ∈ p.addrs :=
  List.mem_append_left _ h

theorem inAddr_mem_addrs (p : Params) (q : Port) : inAddr p q ∈ p.addrs := by
  cases q <;> simp [inAddr, Params.addrs, Params.inAddrs]

/-- The accesses of a command that stores: one read and one write of its store address, then its SCALE write if it has
one (newest first). -/
def storeAccesses (i : Instr) (a : Nat) (old new : Byte) : List Access :=
  ((scaleOf i).map Access.writeScale).toList ++ [.writeReg a new, .readReg a old]

theorem storeAccesses_allowed {p : Params} {i : Instr} {a : Nat} (ha : storeAddr p i = some a) (old new : Byte) :
    ∀ e ∈ storeAccesses i a old new, accessAllowed p e := by
  have hreg : a ∈ p.regAddrs := storeAddr_mem _ _ _ ha
  intro e he
  simp only [storeAccesses, List.mem_append, Option.mem_toList, Option.map_eq_some_iff, List.mem_cons,
    List.not_mem_nil, or_false] at he
  obtain ⟨d, -, rfl⟩ | rfl | rfl := he
  · trivial
  · exact hreg
  · exact mem_addrs_of_reg hreg

/-- Everything an undisturbed command can add to the record of accesses. -/
theorem runAlone_trace {i : Instr} {s t : State} (h : runAlone i s = .next t) :
    (∃ a old new, storeAddr s.params i = some a ∧ t.trace = storeAccesses i a old new ++ s.trace) ∨
    (∃ p n v, i = .rd p n ∧ t.trace = .readReg (inAddr s.params p) v :: s.trace) ∨
    (i = .msread ∧ ∃ raw, t.trace = .sampleMs raw :: s.trace) := by
  obtain ⟨-, ⟨a, old, u, ha, hread, -, rfl⟩ | ⟨p, n, v, u, hi, hread, rfl⟩ | ⟨hi, rfl⟩⟩ := runAlone_next h
  · refine .inl ⟨a, old, storeByte s.din old i, ha, ?_⟩
    rw [regRead_frame hread]
    simp [storeAccesses]
  · refine .inr (.inl ⟨p, n, v, hi, ?_⟩)
    rw [regRead_frame hread]
    rfl
  · exact .inr (.inr ⟨hi, (msRaw s).1, by simp⟩)

/-- Settles O45: the accesses are `storeAccesses` for the commands that store, one read for RD and one sample for
MSREAD. -/
theorem commandsMakeTheirAccessesInOrder : Obligations.CommandsMakeTheirAccessesInOrder := by
  intro i s t h
  obtain ⟨a, old, new, ha, htrace⟩ | ⟨p, n, v, rfl, htrace⟩ | ⟨rfl, raw, htrace⟩ := runAlone_trace h
  · refine ⟨_, htrace, ?_, storeAccesses_allowed ha old new⟩
    cases i with
    | wrc p n v => cases ha; exact ⟨old, new, rfl⟩
    | wr p n => cases ha; exact ⟨old, new, rfl⟩
    | rd p n => cases ha
    | setpwm tm f => cases tm <;> cases ha <;> exact ⟨old, new, rfl⟩
    | msread => cases ha
  · refine ⟨[.readReg (inAddr s.params p) v], htrace, ⟨v, rfl⟩, ?_⟩
    simpa [accessAllowed] using inAddr_mem_addrs s.params p
  · exact ⟨[.sampleMs raw], htrace, ⟨raw, rfl⟩, by simp [accessAllowed]⟩

end Sys2Proof.Machine
end

section
/-! SUPPORT. The agenda and the command port after a step (R54, R171): a function of the state that does not look at the
bus. -/

namespace Sys2Proof.Machine

/-- What decides which commands are executed: the agenda, the mark REFUSED, the caller and DIN. -/
structure CommandView where
  queue : List Event
  refused : Option Illegal
  ctx : Ctx
  din : Byte

def State.commandView (s : State) : CommandView := ⟨s.queue, s.refused, s.ctx, s.din⟩

/-- The command view after a step that answers a next state. -/
def commandViewAfter (s : State) : CommandView :=
  match s.queue with
  | [] => s.commandView
  | .command c w din :: rest =>
    if mayIssue s.tx c then
      match decode w with
      | .cmd _ => { s.commandView with queue := rest, ctx := c, din := din }
      | .illegal r => { s.commandView with refused := some r }
    else s.commandView
  | _ :: rest => { s.commandView with queue := rest }

theorem commandViewAfter_bus (s : State) (m : Memory) : commandViewAfter { s with bus := m } = commandViewAfter s := rfl

/-- At most the head leaves the agenda. -/
theorem commandViewAfter_queue (s : State) :
    (commandViewAfter s).queue = s.queue ∨ ∃ e, s.queue = e :: (commandViewAfter s).queue := by
  unfold commandViewAfter
  split
  · exact .inl rfl
  · next c w din rest hq =>
    split
    · split
      · exact .inr ⟨_, hq⟩
      · exact .inl rfl
    · exact .inl rfl
  · next e rest _ hq => exact .inr ⟨e, hq⟩

theorem regRead_commandView {s u : State} {a : Nat} {v : Byte} (h : regRead s a = .ok (v, u)) :
    u.commandView = s.commandView := by
  rw [regRead_frame h]
  rfl

theorem complete_commandView (s : State) (r : Option Result) : (complete s r).commandView = s.commandView := rfl

theorem openLatch_commandView (s : State) (a : Nat) (v : Byte) (d : Option Code) :
    (openLatch s a v d).commandView = s.commandView := rfl

theorem committed_commandView (s : State) (a : Nat) (v : Byte) (d : Option Code) :
    (committed s a v d).commandView = s.commandView := by
  simp [State.commandView]

theorem exec_commandView {i : Instr} {s t : State} (h : exec i s = .next t) : t.commandView = s.commandView := by
  obtain ⟨-, ⟨a, -, hrmw⟩ | ⟨p, n, v, u, -, hread, rfl⟩ | ⟨-, rfl⟩⟩ := exec_next h
  · obtain ⟨old, u, hread, ⟨-, -, rfl⟩ | ⟨-, rfl⟩⟩ := rmw_next hrmw
    · exact (committed_commandView _ _ _ _).trans (regRead_commandView hread)
    · exact (openLatch_commandView _ _ _ _).trans (regRead_commandView hread)
  · exact (complete_commandView _ _).trans (regRead_commandView hread)
  · simp [State.commandView]

theorem resumeTop_commandView {s t : State} (h : resumeTop s = .next t) : t.commandView = s.commandView := by
  obtain ⟨-, rfl⟩ | ⟨l, rest, -, -, rfl⟩ := resumeTop_next h
  · rfl
  · exact committed_commandView _ _ _ _

theorem deviceWrite_commandView {s t : State} {r : DeviceReg} {v : Byte} (h : deviceWrite s r v = .next t) :
    t.commandView = s.commandView := by
  obtain ⟨-, rfl⟩ := deviceWrite_next h
  rfl

theorem step_commandView {s t : State} (h : step s = .next t) : t.commandView = commandViewAfter s := by
  obtain ⟨-, hcase⟩ := step_next h
  obtain ⟨c, w, d, rest, r, hq, hmay, hdec, rfl⟩ | ⟨c, w, d, rest, i, hq, hmay, hdec, hexec⟩ |
    ⟨hresume, hq | ⟨c, w, d, rest, hq, hmay⟩⟩ | ⟨rest, hq, hresume⟩ | ⟨r, v, rest, hq, hwrite⟩ | ⟨rest, hq, rfl⟩ := hcase
  · simp [commandViewAfter, hq, hmay, hdec, State.commandView]
  · rw [exec_commandView hexec]
    simp [commandViewAfter, hq, hmay, hdec, State.commandView]
  · rw [resumeTop_commandView hresume]
    simp [commandViewAfter, hq]
  · rw [resumeTop_commandView hresume]
    simp [commandViewAfter, hq, hmay]
  · rw [resumeTop_commandView hresume]
    simp [commandViewAfter, hq, State.commandView]
  · rw [deviceWrite_commandView hwrite]
    simp [commandViewAfter, hq, State.commandView]
  · simp [commandViewAfter, hq, State.commandView]

/-- Settles O51: the command view after a step is `commandViewAfter`, in which the bus does not occur. -/
theorem busContentsNeverChangeTheCommands : Obligations.BusContentsNeverChangeTheCommands := by
  constructor
  · intro s t h
    have hqueue : t.queue = (commandViewAfter s).queue := congrArg CommandView.queue (step_commandView h)
    rw [hqueue]
    exact commandViewAfter_queue s
  · intro s t t' m h h'
    have hview : t'.commandView = t.commandView :=
      calc t'.commandView = commandViewAfter { s with bus := m } := step_commandView h'
        _ = commandViewAfter s := commandViewAfter_bus s m
        _ = t.commandView := (step_commandView h).symm
    simpa [State.commandView] using hview

end Sys2Proof.Machine
end

section
/-! SUPPORT. The decoder against the opcode map (R71): the fields that a decoded command fixes, the commands of a mnemonic
listed out, and the rows that select their words. -/

namespace Sys2Proof

/-! ### The fields of a word and of a command -/

/-- The four fields of R61. -/
structure WordFields where
  op : Nat
  /-- PORT or TMR. -/
  upper : Nat
  /-- PIN or FREQ. -/
  lower : Nat
  lowByte : Nat

/-- The fields of a word, which determine it (`word_eq_of_slices`). -/
def wordFields (w : CmdWord) : WordFields := ⟨slice w 15 13, slice w 12 11, slice w 10 8, slice w 7 0⟩

/-- The fields of a command's word. -/
def Instr.fields : Instr → WordFields
  | .wrc p n v => ⟨0, (portCode p).toNat, n, if v then 128 else 0⟩
  | .wr p n => ⟨1, (portCode p).toNat, n, 0⟩
  | .rd p n => ⟨2, (portCode p).toNat, n, 0⟩
  | .setpwm t f => ⟨3, (timerCode t).toNat, (freqCode f).toNat, 0⟩
  | .msread => ⟨4, 0, 0, 0⟩

theorem wordFields_injective : Function.Injective wordFields := by
  intro w x h
  simp only [wordFields, WordFields.mk.injEq] at h
  obtain ⟨hop, hupper, hlower, hbyte⟩ := h
  exact word_eq_of_slices hop hupper hlower hbyte

/-- The low byte of a WRC word is its value bit. -/
theorem slice_low_byte_of_wrc {w : CmdWord} (h : slice w 6 0 = 0) :
    slice w 7 0 = if slice w 7 7 == 1 then 128 else 0 := by
  simp only [slice] at *
  norm_num at *
  split <;> omega

/-- The bits below OP are the other three fields. -/
theorem slices_eq_zero_of_low_bits {w : CmdWord} (h : slice w 12 0 = 0) :
    slice w 12 11 = 0 ∧ slice w 10 8 = 0 ∧ slice w 7 0 = 0 := by
  simp only [slice] at *
  norm_num at *
  omega

/-- A decoded command has the fields of its word. -/
theorem wordFields_of_decode {w : CmdWord} {i : Instr} (h : decode w = .cmd i) : wordFields w = i.fields := by
  unfold decode at h
  split at h
  · next hop =>
    obtain ⟨hz, p, hp, rfl⟩ := pinFormat_cmd h
    simp [wordFields, Instr.fields, hop, hp, slice_low_byte_of_wrc hz]
  · next hop =>
    obtain ⟨hz, p, hp, rfl⟩ := pinFormat_cmd h
    simp [wordFields, Instr.fields, hop, hp, hz]
  · next hop =>
    obtain ⟨hz, p, hp, rfl⟩ := pinFormat_cmd h
    simp [wordFields, Instr.fields, hop, hp, hz]
  · next hop =>
    obtain ⟨hz, t, f, ht, hf, rfl⟩ := tmrFormat_cmd h
    simp [wordFields, Instr.fields, hop, ht, hf, hz]
  · next hop =>
    split at h
    · cases h
    · next hz =>
      cases h
      obtain ⟨hupper, hlower, hbyte⟩ := slices_eq_zero_of_low_bits (not_not.1 hz)
      simp [wordFields, Instr.fields, hop, hupper, hlower, hbyte]
  · cases h

/-- A decoded command's pin index is three bits of its word. -/
theorem wf_of_decode {w : CmdWord} {i : Instr} (h : decode w = .cmd i) : i.wf = true := by
  have hlower : i.fields.lower < 8 := wordFields_of_decode h ▸ slice_lower_lt w
  cases i with
  | wrc p n v => exact decide_eq_true hlower
  | wr p n => exact decide_eq_true hlower
  | rd p n => exact decide_eq_true hlower
  | setpwm t f => rfl
  | msread => rfl

/-! ### The commands of a mnemonic -/

def Port.all : List Port := [.b, .c, .d]

/-- The well-formed commands of a mnemonic. -/
def Mnemonic.commands : Mnemonic → List Instr
  | .WRC => Port.all.flatMap fun p => (List.range 8).flatMap fun n => [false, true].map (Instr.wrc p n)
  | .WR => Port.all.flatMap fun p => (List.range 8).map (Instr.wr p)
  | .RD => Port.all.flatMap fun p => (List.range 8).map (Instr.rd p)
  | .SETPWM => [Timer.a, .b, .c].flatMap fun t =>
      [FreqClass.hz31k, .hz4k, .hz1k, .hz488, .hz244, .hz122, .hz30].map (Instr.setpwm t)
  | .MSREAD => [.msread]

theorem Port.mem_all (p : Port) : p ∈ Port.all := by
  cases p <;> decide

theorem mnemonic_of_mem_commands {m : Mnemonic} {i : Instr} (h : i ∈ m.commands) : i.mnemonic = m := by
  revert i
  cases m <;> decide

/-- The list is complete. -/
theorem mem_commands_of_wf {i : Instr} (h : i.wf = true) : i ∈ i.mnemonic.commands := by
  cases i with
  | wrc p n v => cases v <;> simpa [Instr.mnemonic, Mnemonic.commands, Port.mem_all, Instr.wf] using h
  | wr p n => simpa [Instr.mnemonic, Mnemonic.commands, Port.mem_all, Instr.wf] using h
  | rd p n => simpa [Instr.mnemonic, Mnemonic.commands, Port.mem_all, Instr.wf] using h
  | setpwm t f => cases t <;> cases f <;> decide
  | msread => decide

theorem commands_nodup (m : Mnemonic) : m.commands.Nodup := by
  cases m <;> decide

/-- One check for each of a mnemonic's commands. -/
theorem decode_encode_of_mem_commands {m : Mnemonic} {i : Instr} (h : i ∈ m.commands) : decode (encode i) = .cmd i := by
  revert i
  cases m <;> decide

theorem decode_encode {i : Instr} (h : i.wf = true) : decode (encode i) = .cmd i :=
  decode_encode_of_mem_commands (mem_commands_of_wf h)

/-- A word and the encoding of its command have the same fields. -/
theorem encode_of_decode {w : CmdWord} {i : Instr} (h : decode w = .cmd i) : encode i = w := by
  apply wordFields_injective
  rw [wordFields_of_decode h, wordFields_of_decode (decode_encode (wf_of_decode h))]

/-! ### The words of a mnemonic -/

/-- The word decodes to a command of the mnemonic. -/
def DecodesTo (w : CmdWord) (m : Mnemonic) : Prop := ∃ i, decode w = .cmd i ∧ i.mnemonic = m

def Mnemonic.words (m : Mnemonic) : List CmdWord := m.commands.map encode

theorem Mnemonic.mem_words {m : Mnemonic} {w : CmdWord} : w ∈ m.words ↔ DecodesTo w m := by
  simp only [Mnemonic.words, List.mem_map]
  constructor
  · rintro ⟨i, hi, rfl⟩
    exact ⟨i, decode_encode_of_mem_commands hi, mnemonic_of_mem_commands hi⟩
  · rintro ⟨i, hdec, rfl⟩
    exact ⟨i, mem_commands_of_wf (wf_of_decode hdec), encode_of_decode hdec⟩

/-- The decoder tells the encodings apart. -/
theorem Mnemonic.words_nodup (m : Mnemonic) : m.words.Nodup := by
  refine (commands_nodup m).map_on fun i hi j hj hij => ?_
  have hdec := decode_encode_of_mem_commands hi
  rw [hij, decode_encode_of_mem_commands hj] at hdec
  exact (Decoded.cmd.inj hdec).symm

theorem DecodesTo.unique {w : CmdWord} {m m' : Mnemonic} (h : DecodesTo w m) (h' : DecodesTo w m') : m = m' := by
  obtain ⟨i, hi, rfl⟩ := h
  obtain ⟨j, hj, rfl⟩ := h'
  rw [Decoded.cmd.inj (hi.symm.trans hj)]

/-! ### The rows of the opcode map -/

/-- A field that a mask covers is read through the mask. -/
theorem slice_and_mask {w mask : CmdWord} {hi lo : Nat} (hle : lo ≤ hi)
    (hmask : mask.extractLsb hi lo = BitVec.allOnes _) : slice (w &&& mask) hi lo = slice w hi lo := by
  rw [slice_eq_extractLsb _ _ _ hle, slice_eq_extractLsb _ _ _ hle, BitVec.extractLsb_and, hmask, BitVec.and_allOnes]

theorem bits_of_slice_upper {w : CmdWord} (h : slice w 12 11 = 3) : w.getLsbD 12 = true ∧ w.getLsbD 11 = true := by
  simp only [slice] at h
  simp only [BitVec.getLsbD, Nat.testBit_eq_decide_div_mod_eq, decide_eq_true_eq]
  omega

theorem bits_of_slice_lower {w : CmdWord} (h : slice w 10 8 = 7) :
    w.getLsbD 10 = true ∧ w.getLsbD 9 = true ∧ w.getLsbD 8 = true := by
  simp only [slice] at h
  simp only [BitVec.getLsbD, Nat.testBit_eq_decide_div_mod_eq, decide_eq_true_eq]
  omega

/-- The PIN format accepts a word whose zero bits are zero and whose PORT is not reserved. -/
theorem pinFormat_accepts {w : CmdWord} {z : Nat} (k : Port → Nat → Instr) (hz : z = 0) (hport : slice w 12 11 ≠ 3) :
    ∃ p, pinFormat w z k = .cmd (k p (slice w 10 8)) := by
  cases h : pinFormat w z k with
  | cmd i =>
    obtain ⟨-, p, -, rfl⟩ := pinFormat_cmd h
    exact ⟨p, rfl⟩
  | illegal r =>
    obtain ⟨-, hz' | hport'⟩ := pinFormat_illegal.1 h
    · exact absurd hz hz'
    · exact absurd hport' hport

/-- The TMR format accepts a word whose low byte is zero and whose TMR and FREQ are not reserved. -/
theorem tmrFormat_accepts {w : CmdWord} (hz : slice w 7 0 = 0) (htmr : slice w 12 11 ≠ 3) (hfreq : slice w 10 8 ≠ 7) :
    ∃ t f, tmrFormat w = .cmd (.setpwm t f) := by
  obtain ⟨t, ht⟩ := Option.ne_none_iff_exists'.1 (mt (timerOf_eq_none (slice_upper_lt w)).1 htmr)
  obtain ⟨f, hf⟩ := Option.ne_none_iff_exists'.1 (mt (freqOf_eq_none (slice_lower_lt w)).1 hfreq)
  exact ⟨t, f, by simp [tmrFormat, hz, ht, hf]⟩

/-- The row of a mnemonic in the opcode map. -/
def Mnemonic.row : Mnemonic → OpcodeRow
  | .WRC => ⟨some .WRC, 0x0000, 0xE07F, true, false, 48⟩
  | .WR => ⟨some .WR, 0x2000, 0xE0FF, true, false, 24⟩
  | .RD => ⟨some .RD, 0x4000, 0xE0FF, true, false, 24⟩
  | .SETPWM => ⟨some .SETPWM, 0x6000, 0xE0FF, true, true, 21⟩
  | .MSREAD => ⟨some .MSREAD, 0x8000, 0xFFFF, false, false, 1⟩

theorem Mnemonic.row_mem (m : Mnemonic) : m.row ∈ opcodeMap := by
  cases m <;> decide

theorem Mnemonic.row_name (m : Mnemonic) : m.row.name = some m := by
  cases m <;> rfl

/-- A row with a mnemonic is that mnemonic's row; the others are reserved and have no legal word. -/
theorem opcodeMap_row {r : OpcodeRow} (h : r ∈ opcodeMap) :
    (∃ m : Mnemonic, r = m.row) ∨ (r.name = none ∧ r.legalWords = 0) := by
  simp only [opcodeMap, List.mem_cons, List.not_mem_nil, or_false] at h
  obtain rfl | rfl | rfl | rfl | rfl | hreserved := h
  · exact .inl ⟨.WRC, rfl⟩
  · exact .inl ⟨.WR, rfl⟩
  · exact .inl ⟨.RD, rfl⟩
  · exact .inl ⟨.SETPWM, rfl⟩
  · exact .inl ⟨.MSREAD, rfl⟩
  · obtain rfl | rfl | rfl := hreserved <;> exact .inr ⟨rfl, rfl⟩

theorem Mnemonic.words_length (m : Mnemonic) : m.words.length = m.row.legalWords := by
  cases m <;> rfl

/-- A field under a row's mask holds what the row's match holds there. -/
theorem OpcodeRow.selects.slice_eq {r : OpcodeRow} {w : CmdWord} (h : r.selects w) {hi lo : Nat} (hle : lo ≤ hi)
    (hmask : r.mask.extractLsb hi lo = BitVec.allOnes _) : slice w hi lo = slice r.base hi lo := by
  obtain ⟨-, hmatch, -⟩ := h
  rw [← hmatch, slice_and_mask hle hmask]

theorem OpcodeRow.selects.upper_ne {r : OpcodeRow} {w : CmdWord} (h : r.selects w) (hr : r.upperFieldNot3 = true) :
    slice w 12 11 ≠ 3 := by
  obtain ⟨-, -, hupper, -⟩ := h
  exact mt bits_of_slice_upper (hupper hr)

theorem OpcodeRow.selects.lower_ne {r : OpcodeRow} {w : CmdWord} (h : r.selects w) (hr : r.freqNot7 = true) :
    slice w 10 8 ≠ 7 := by
  obtain ⟨-, -, -, hlower⟩ := h
  exact mt bits_of_slice_lower (hlower hr)

/-- The decoder accepts what a row selects. -/
theorem decodesTo_of_selects {m : Mnemonic} {w : CmdWord} (h : m.row.selects w) : DecodesTo w m := by
  cases m with
  | WRC =>
    have hop : slice w 15 13 = 0 := h.slice_eq (by decide) (by decide)
    have hz : slice w 6 0 = 0 := h.slice_eq (by decide) (by decide)
    obtain ⟨p, hp⟩ := pinFormat_accepts (fun p n => .wrc p n (slice w 7 7 == 1)) hz (h.upper_ne rfl)
    exact ⟨_, by simpa only [decode, hop] using hp, rfl⟩
  | WR =>
    have hop : slice w 15 13 = 1 := h.slice_eq (by decide) (by decide)
    have hz : slice w 7 0 = 0 := h.slice_eq (by decide) (by decide)
    obtain ⟨p, hp⟩ := pinFormat_accepts .wr hz (h.upper_ne rfl)
    exact ⟨_, by simpa only [decode, hop] using hp, rfl⟩
  | RD =>
    have hop : slice w 15 13 = 2 := h.slice_eq (by decide) (by decide)
    have hz : slice w 7 0 = 0 := h.slice_eq (by decide) (by decide)
    obtain ⟨p, hp⟩ := pinFormat_accepts .rd hz (h.upper_ne rfl)
    exact ⟨_, by simpa only [decode, hop] using hp, rfl⟩
  | SETPWM =>
    have hop : slice w 15 13 = 3 := h.slice_eq (by decide) (by decide)
    have hz : slice w 7 0 = 0 := h.slice_eq (by decide) (by decide)
    obtain ⟨t, f, htf⟩ := tmrFormat_accepts hz (h.upper_ne rfl) (h.lower_ne rfl)
    exact ⟨_, by simpa only [decode, hop] using htf, rfl⟩
  | MSREAD =>
    have hop : slice w 15 13 = 4 := h.slice_eq (by decide) (by decide)
    have hz : slice w 12 0 = 0 := h.slice_eq (by decide) (by decide)
    exact ⟨.msread, by simp [decode, hop, hz], rfl⟩

/-- One check for each of a mnemonic's commands. -/
theorem row_selects_encode {m : Mnemonic} {i : Instr} (h : i ∈ m.commands) : m.row.selects (encode i) := by
  unfold OpcodeRow.selects
  revert i
  cases m <;> decide

theorem row_selects_iff {m : Mnemonic} {w : CmdWord} : m.row.selects w ↔ DecodesTo w m := by
  refine ⟨decodesTo_of_selects, fun h => ?_⟩
  obtain ⟨i, hi, rfl⟩ := List.mem_map.1 (Mnemonic.mem_words.2 h)
  exact row_selects_encode hi

theorem decodesTo_iff_row (w : CmdWord) (m : Mnemonic) :
    DecodesTo w m ↔ ∃ r ∈ opcodeMap, r.name = some m ∧ r.selects w := by
  constructor
  · exact fun h => ⟨m.row, m.row_mem, m.row_name, row_selects_iff.2 h⟩
  · rintro ⟨r, hr, hname, hselects⟩
    obtain ⟨m', rfl⟩ | ⟨hnone, -⟩ := opcodeMap_row hr
    · rw [Mnemonic.row_name, Option.some.injEq] at hname
      exact hname ▸ row_selects_iff.1 hselects
    · rw [hnone] at hname; cases hname

theorem opcodeMap_row_words {r : OpcodeRow} (hr : r ∈ opcodeMap) :
    ∃ words : List CmdWord, words.Nodup ∧ words.length = r.legalWords ∧ ∀ w, w ∈ words ↔ r.selects w := by
  obtain ⟨m, rfl⟩ | ⟨hnone, hcount⟩ := opcodeMap_row hr
  · exact ⟨m.words, m.words_nodup, m.words_length, fun _ => Mnemonic.mem_words.trans row_selects_iff.symm⟩
  · exact ⟨[], List.nodup_nil, hcount.symm, by simp [OpcodeRow.selects, hnone]⟩

def Mnemonic.all : List Mnemonic := [.WRC, .WR, .RD, .SETPWM, .MSREAD]

theorem Mnemonic.mem_all (m : Mnemonic) : m ∈ Mnemonic.all := by
  cases m <;> decide

/-- All legal words (R71). -/
def legalWords : List CmdWord := Mnemonic.all.flatMap Mnemonic.words

theorem mem_legalWords (w : CmdWord) : w ∈ legalWords ↔ ∃ i, decode w = .cmd i := by
  simp only [legalWords, List.mem_flatMap, Mnemonic.mem_words]
  constructor
  · rintro ⟨m, -, i, hdec, -⟩
    exact ⟨i, hdec⟩
  · rintro ⟨i, hdec⟩
    exact ⟨i.mnemonic, Mnemonic.mem_all _, i, hdec, rfl⟩

/-- No word decodes to commands of two mnemonics. -/
theorem legalWords_nodup : legalWords.Nodup := by
  have hall : Mnemonic.all.Nodup := by decide
  refine List.nodup_flatMap.2 ⟨fun m _ => m.words_nodup, hall.imp fun {m m'} hne w hw hw' => hne ?_⟩
  exact (Mnemonic.mem_words.1 hw).unique (Mnemonic.mem_words.1 hw')

/-- Settles O3: each row selects the encodings of its mnemonic's commands, which are listed and counted. -/
theorem opcodeMapSelectsExactlyTheLegalWords : Obligations.OpcodeMapSelectsExactlyTheLegalWords :=
  ⟨decodesTo_iff_row, fun _ => opcodeMap_row_words, legalWords, legalWords_nodup, rfl, mem_legalWords⟩

end Sys2Proof
end

section
/-! SUPPORT. The pseudo-commands PINLOW and PINHIGH (R76). -/

namespace Sys2Proof.Machine

/-- After an undisturbed WRC the pin's bit is the complement of the command's value (R83). -/
theorem runAlone_wrc_bit {p : Port} {n : Nat} {v : Bool} {s t : State} (hp : s.params.wf = true) (hn : n < 8)
    (h : runAlone (.wrc p n v) s = .next t) :
    ∃ x, t.bus.read (outAddr s.params p) = some x ∧ x.getLsbD n = !v := by
  obtain ⟨-, old, -, rfl⟩ := runAlone_store_next hp rfl h
  exact ⟨pinUpdate n v old, by simp [storeByte], pinUpdate_bit n v old hn⟩

/-- Settles O53: the two are WRC with value 1 and with value 0. -/
theorem pseudoCommandsDriveThePin : Obligations.PseudoCommandsDriveThePin :=
  fun _ _ => ⟨rfl, rfl, fun hn _ _ hp => ⟨runAlone_wrc_bit hp hn, runAlone_wrc_bit hp hn⟩⟩

end Sys2Proof.Machine
end

section
/-! SUPPORT. The pin commands (40_pin_io.md): what RD answers for each source of its byte, and what WRC and WR have in
common. -/

namespace Sys2Proof.Machine

/-! ### The mask and the RD result -/

/-- Settles O25: bit k of the mask is set exactly for the mask's own pin. -/
theorem maskHasExactlyItsBit : Obligations.MaskHasExactlyItsBit := by
  intro n hn
  refine ⟨rfl, fun k => ?_⟩
  simp only [mask_getLsbD, Bool.and_eq_true, decide_eq_true_eq]
  omega

/-- Settles O26: the resolvers are these tables. -/
theorem resolversPickTheirRegister : Obligations.ResolversPickTheirRegister :=
  fun _ => ⟨rfl, rfl, rfl, rfl, rfl, rfl, rfl, rfl, rfl⟩

/-- A masked byte is the mask or 0, so RD has two possible answers (R85). -/
theorem not_and_mask (n : Nat) (v : Byte) :
    ~~~ (v &&& mask n) = if v.getLsbD n = true then ~~~ (mask n) else 0xFF#8 := by
  have hmasked : v &&& mask n = if v.getLsbD n = true then mask n else 0#8 := BitVec.and_twoPow v n
  rw [hmasked]
  split <;> rfl

/-- The complement of a masked byte keeps every bit but the pin's set. -/
theorem not_and_mask_ne_zero {n : Nat} (hn : n < 8) (v : Byte) : ~~~ (v &&& mask n) ≠ 0#8 := by
  rw [not_and_mask]
  split
  · interval_cases n <;> decide
  · decide

theorem rdResult_eq (w : RdWidth) (n : Nat) (v : Byte) :
    rdResult w n v =
      if w = .w8 then .rd8 (~~~ (v &&& mask n)) else .rd16 (0xFF#8 ++ ~~~ (v &&& mask n)) := by
  cases w <;> rfl

/-! ### RD -/

theorem exec_rd {p : Port} {n : Nat} {s u : State} {v : Byte} (hn : n < 8)
    (h : regRead s (inAddr s.params p) = .ok (v, u)) :
    exec (.rd p n) s = .next (complete u (some (rdResult s.params.rdWidth n v))) := by
  simp [exec, execRd, hn, h]

theorem exec_rd_loopback {p : Port} {n : Nat} {s : State} {v : Byte} (hn : n < 8) (hp : s.params.wf = true)
    (hl : s.params.loopback = true) (hv : s.bus.read (outAddr s.params p) = some v) :
    exec (.rd p n) s =
      .next (complete (s.log (.readReg (inAddr s.params p) v)) (some (rdResult s.params.rdWidth n v))) :=
  exec_rd hn ((regRead_loopback (inPort_inAddr hp p) hl).trans (readCell_ok.2 ⟨hv, rfl⟩))

theorem exec_rd_draw {p : Port} {n : Nat} {s u : State} {v : Byte} (hn : n < 8) (hp : s.params.wf = true)
    (hl : s.params.loopback = false) (hdraw : drawPins s = (v, u)) :
    exec (.rd p n) s =
      .next (complete (u.log (.readReg (inAddr s.params p) v)) (some (rdResult s.params.rdWidth n v))) :=
  exec_rd hn (by rw [regRead_draw (inPort_inAddr hp p) hl, hdraw])

/-- The words with RD's OP that spell no RD (R66, R71). -/
theorem decode_rd_op_illegal {w : CmdWord} (hop : slice w 15 13 = 2) (h : slice w 12 11 = 3 ∨ slice w 7 0 ≠ 0) :
    decode w = .illegal .reservedBitsOrPort := by
  have hpin : decode w = pinFormat w (slice w 7 0) .rd := by simp [decode, hop]
  exact hpin.trans (pinFormat_illegal.2 ⟨rfl, h.symm⟩)

/-- Settles O17: the read's three sources of a byte, and the two values of its masked complement. -/
theorem rdReturnsTheComplementOfTheMaskedInput : Obligations.RdReturnsTheComplementOfTheMaskedInput := by
  constructor
  · intro p n s hn hp a result
    have hresult : ∀ v, rdResult s.params.rdWidth n v = result v := fun v => rdResult_eq _ n v
    refine ⟨rfl, fun hl v hv => ?_, fun hl v rest hpins => ?_, fun hl hpins => ?_,
      fun v => ⟨not_and_mask n v, not_and_mask_ne_zero hn v⟩⟩
    · rw [exec_rd_loopback hn hp hl hv, hresult]; rfl
    · rw [exec_rd_draw hn hp hl (drawPins_of_cons s v rest hpins), hresult]; rfl
    · rw [exec_rd_draw hn hp hl (drawPins_of_nil s hpins), hresult]; rfl
  · intro w hop hbad
    rw [← slice_eq_extractLsb w _ _ (by decide)] at hop
    rw [← slice_eq_extractLsb w _ _ (by decide), ← slice_eq_extractLsb w _ _ (by decide)] at hbad
    exact ⟨_, decode_rd_op_illegal hop hbad⟩

/-! ### WRC and WR -/

/-- The command writes pin (p, n), low for `low` true and high for `low` false, when DIN is `din` (R83, R84). -/
def WritesPin (din : Byte) (p : Port) (n : Nat) (low : Bool) (i : Instr) : Prop :=
  i = .wrc p n low ∨ (i = .wr p n ∧ low = decide (din ≠ 0))

section
variable {din : Byte} {p : Port} {n : Nat} {low : Bool} {i : Instr} (h : WritesPin din p n low i)
include h

theorem WritesPin.storeAddr_eq (params : Params) : storeAddr params i = some (outAddr params p) := by
  obtain rfl | ⟨rfl, -⟩ := h <;> rfl

theorem WritesPin.storeByte_eq (old : Byte) : storeByte din old i = pinUpdate n low old := by
  obtain rfl | ⟨rfl, rfl⟩ := h <;> rfl

theorem WritesPin.wf (hn : n < 8) : i.wf = true := by
  obtain rfl | ⟨rfl, -⟩ := h <;> exact decide_eq_true hn

end

/-- Settles O22: the one byte an undisturbed command stores is a pin update of OUT[p]. -/
theorem pinWritesKeepTheOtherBits : Obligations.PinWritesKeepTheOtherBits := by
  intro p n i s t hp hi h
  obtain ⟨low, hlow⟩ : ∃ low, WritesPin s.din p n low i := by
    obtain rfl | ⟨v, rfl⟩ := hi
    · exact ⟨_, .inr ⟨rfl, rfl⟩⟩
    · exact ⟨v, .inl rfl⟩
  obtain ⟨-, old, hold, rfl⟩ := runAlone_store_next hp (hlow.storeAddr_eq _) h
  refine ⟨fun b hb => ?_, old, pinUpdate n low old, hold, ?_, fun k hk => pinUpdate_other n k low old hk⟩
  · simpa using Memory.read_write_other s.bus _ b _ hb
  · simp [hlow.storeByte_eq]

/-- RD of a byte that a pin write has just updated (R87). -/
theorem not_pinUpdate_and_mask {n : Nat} (hn : n < 8) (low : Bool) (old : Byte) :
    ~~~ (pinUpdate n low old &&& mask n) = if low = true then 0xFF#8 else ~~~ (mask n) := by
  rw [not_and_mask, pinUpdate_bit n low old hn]
  cases low <;> rfl

/-- Settles O23: the RD finds in OUT[p] the byte that the undisturbed write has stored. -/
theorem loopbackRoundTrip : Obligations.LoopbackRoundTrip := by
  intro p n s old i low hn hp hl hold (hi : WritesPin s.din p n low i) r8
  have hreg : inPort s.params (outAddr s.params p) = none := inPort_of_reg hp (outAddr_mem _ p)
  have hrun := runAlone_store (hi.wf hn) (hi.storeAddr_eq _) hreg hold
  rw [hi.storeByte_eq] at hrun
  refine ⟨_, _, hrun, exec_rd_loopback (v := pinUpdate n low old) hn (by simpa) (by simpa) (by simp), ?_⟩
  simp only [complete_response, Option.map_some, State.log_ctx, committed_ctx, committed_params, State.log_params,
    rdResult_eq, not_pinUpdate_and_mask hn]
  rfl

end Sys2Proof.Machine
end

section
/-! SUPPORT. The divider tables (R102, R103), and what an undisturbed SETPWM does to its target register (R105, R107) and to
SCALE (R106). -/

namespace Sys2Proof.Machine

/-! ### The divider tables -/

/-- Settles O27: each class's table is the one R102 gives. -/
theorem dividerTable : Obligations.DividerTable := by
  refine ⟨fun t ht => ?_, by decide⟩
  obtain rfl | rfl := ht
  · decide
  · decide

theorem freqCode_le_six (f : FreqClass) : (freqCode f).toNat ≤ 6 := by
  cases f <;> decide

/-- Timers A and B share the Class16 table (R100). -/
theorem dividerCode_b (f : FreqClass) : dividerCode .b f = dividerCode .a f := rfl

/-- The Class16 table as a function of the FREQ code: it rises at every second code, and once more at the last. -/
theorem dividerCode_a_toNat (f : FreqClass) :
    (dividerCode .a f).toNat = ((freqCode f).toNat + 3) / 2 + (freqCode f).toNat / 6 := by
  cases f <;> rfl

/-- The Class8 table as a function of the FREQ code (R103). -/
theorem dividerCode_c_toNat (f : FreqClass) : (dividerCode .c f).toNat = (freqCode f).toNat + 1 := by
  cases f <;> rfl

theorem dividerCode_mono (t : Timer) {f g : FreqClass} (h : (freqCode f).toNat ≤ (freqCode g).toNat) :
    (dividerCode t f).toNat ≤ (dividerCode t g).toNat := by
  cases t with
  | a => rw [dividerCode_a_toNat, dividerCode_a_toNat]; omega
  | b => rw [dividerCode_b, dividerCode_b, dividerCode_a_toNat, dividerCode_a_toNat]; omega
  | c => rw [dividerCode_c_toNat, dividerCode_c_toNat]; omega

/-- SETPWM looks at its class through the divider code only. -/
theorem exec_setpwm_congr {t : Timer} {f g : FreqClass} (h : dividerCode t f = dividerCode t g) (s : State) :
    exec (.setpwm t f) s = exec (.setpwm t g) s := by
  simp only [exec, execSetpwm, h]

theorem dividerCode_a_not_six_or_seven (f : FreqClass) : ¬ (dividerCode .a f = 6 ∨ dividerCode .a f = 7) := by
  obtain ⟨-, hle⟩ := dividerCode_a_legal f
  rintro (h | h) <;> rw [h] at hle <;> exact absurd hle (by decide)

/-- Settles O28: both tables as functions of the FREQ code, the equal neighbours of the Class16 table, and its bound of
5. -/
theorem dividerTableProperties : Obligations.DividerTableProperties := by
  refine ⟨fun f => ?_, fun t f g => dividerCode_mono t, fun t s ht => ?_, dividerCode_c_toNat, fun t f hcode => ?_⟩
  · obtain ⟨hlo, hhi⟩ := dividerCode_a_legal f
    have hf := freqCode_le_six f
    refine ⟨hlo, hhi, dividerCode_b f, ?_, ?_⟩ <;> rw [dividerCode_c_toNat] <;> omega
  · obtain rfl | rfl := ht <;> exact ⟨exec_setpwm_congr rfl s, exec_setpwm_congr rfl s⟩
  · cases t with
    | a => exact absurd hcode (dividerCode_a_not_six_or_seven f)
    | b => exact absurd hcode (dividerCode_a_not_six_or_seven f)
    | c => rfl

/-! ### The control register -/

theorem csUpdate_extractLsb_high (d : Code) (old : Byte) : (csUpdate d old).extractLsb 7 3 = old.extractLsb 7 3 := by
  apply BitVec.eq_of_getLsbD_eq
  intro k hk
  rw [BitVec.getLsbD_extractLsb, BitVec.getLsbD_extractLsb, csUpdate_high d old (3 + k) (by omega)]

theorem csUpdate_extractLsb_low (d : Code) (old : Byte) : (csUpdate d old).extractLsb 2 0 = d :=
  (BitVec.setWidth_eq_extractLsb' (by decide)).symm.trans (csUpdate_low d old)

/-- The one byte an undisturbed SETPWM changes is its target register's. -/
theorem runAlone_setpwm_stores {tm : Timer} {f : FreqClass} {s t : State} (hp : s.params.wf = true)
    (h : runAlone (.setpwm tm f) s = .next t) :
    ∃ old, s.bus.read (target s.params tm) = some old ∧
      storesOnly s t (target s.params tm) (csUpdate (dividerCode tm f) old) := by
  obtain ⟨-, old, hold, rfl⟩ := runAlone_store_next hp rfl h
  exact ⟨old, hold, storesOnly_of_write (by simp [storeByte])⟩

/-- Settles O29: the byte stored is `csUpdate` of the old one, and the statement's address is `target`, timer by timer. -/
theorem setpwmKeepsTheUpperBits : Obligations.SetpwmKeepsTheUpperBits := by
  intro tm f s t hp h a
  have ha : a = target s.params tm := by cases tm <;> rfl
  obtain ⟨old, hold, hstores⟩ := runAlone_setpwm_stores hp h
  rw [ha]
  exact ⟨old, _, hold, hstores, csUpdate_extractLsb_high _ old, csUpdate_extractLsb_low _ old⟩

/-! ### SCALE -/

/-- SCALE after an undisturbed command: what the command writes there, if it writes it. -/
theorem runAlone_scale {i : Instr} {s t : State} (h : runAlone i s = .next t) :
    t.scale = (scaleOf i).getD s.scale := by
  obtain ⟨-, ⟨a, old, u, -, hread, -, rfl⟩ | ⟨p, n, v, u, rfl, hread, rfl⟩ | ⟨rfl, rfl⟩⟩ := runAlone_next h
  · obtain ⟨-, hscale, -⟩ := regRead_same hread
    rw [committed_scale, hscale]
  · obtain ⟨-, hscale, -⟩ := regRead_same hread
    exact hscale
  · exact msRaw_scale s

theorem scaleOf_eq_none {i : Instr} (h : ∀ f, i ≠ .setpwm .a f) : scaleOf i = none := by
  refine Option.eq_none_iff_forall_ne_some.2 fun d hd => ?_
  obtain ⟨f, hi, -⟩ := scaleOf_eq_some hd
  exact h f hi

/-- Settles O30: an undisturbed command leaves in SCALE what `scaleOf` says, which only SETPWM on Timer A has. -/
theorem onlyPrimaryTimerWritesScale : Obligations.OnlyPrimaryTimerWritesScale := by
  refine ⟨fun i s t h => ⟨?_, fun hi => ?_⟩, dividerCode_a_legal⟩
  · rintro f rfl
    exact runAlone_scale h
  · rw [runAlone_scale h, scaleOf_eq_none hi, Option.getD_none]

end Sys2Proof.Machine
end

section
/-! SUPPORT. MSREAD (42_millis.md): the transform at each SCALE code, the sample it is applied to, and the words with
MSREAD's OP that spell no MSREAD. -/

namespace Sys2Proof.Machine

/-! ### The SCALE codes -/

theorem scaleLegal_iff {d : Code} : scaleLegal d ↔ d = 1 ∨ d = 2 ∨ d = 3 ∨ d = 4 ∨ d = 5 := by
  unfold scaleLegal
  revert d
  decide

theorem not_scaleLegal_iff {d : Code} : ¬ scaleLegal d ↔ d = 0 ∨ d = 6 ∨ d = 7 := by
  unfold scaleLegal
  revert d
  decide

/-! ### The transform -/

theorem msTransform_one (raw : MsWord) : msTransform 1 raw = raw >>> 6 := rfl
theorem msTransform_two (raw : MsWord) : msTransform 2 raw = raw >>> 3 := rfl
theorem msTransform_three (raw : MsWord) : msTransform 3 raw = raw := rfl
theorem msTransform_four (raw : MsWord) : msTransform 4 raw = raw <<< 2 := rfl
theorem msTransform_five (raw : MsWord) : msTransform 5 raw = raw <<< 4 := rfl

/-- The fallback (R121). -/
theorem msTransform_of_not_legal {d : Code} (h : ¬ scaleLegal d) (raw : MsWord) : msTransform d raw = raw := by
  obtain rfl | rfl | rfl := not_scaleLegal_iff.1 h <;> rfl

/-- The transform as a chain of tests of the code (R120). -/
theorem msTransform_eq_ite (d : Code) (raw : MsWord) :
    msTransform d raw =
      if d = 1 then raw >>> 6
      else if d = 2 then raw >>> 3
      else if d = 3 then raw
      else if d = 4 then raw <<< 2
      else if d = 5 then raw <<< 4
      else raw := by
  by_cases h : scaleLegal d
  · obtain rfl | rfl | rfl | rfl | rfl := scaleLegal_iff.1 h <;> rfl
  · rw [msTransform_of_not_legal h]
    obtain rfl | rfl | rfl := not_scaleLegal_iff.1 h <;> rfl

/-! The shifts as arithmetic at width 32 (R122). -/

theorem toNat_ushiftRight_eq_div (raw : MsWord) (k : Nat) : (raw >>> k).toNat = raw.toNat / 2 ^ k := by
  rw [BitVec.toNat_ushiftRight, Nat.shiftRight_eq_div_pow]

theorem toNat_shiftLeft_eq_mul_mod (raw : MsWord) (k : Nat) : (raw <<< k).toNat = raw.toNat * 2 ^ k % 2 ^ 32 := by
  rw [BitVec.toNat_shiftLeft, Nat.shiftLeft_eq]

/-! ### The command -/

/-- MSREAD with a sample listed. -/
theorem exec_msread_of_cons {s : State} {raw : MsWord} {rest : List MsWord} (h : s.ticks = raw :: rest) :
    exec .msread s =
      .next (complete ({ s with ticks := rest }.log (.sampleMs raw)) (some (.ms (msTransform s.scale raw)))) := by
  simp only [exec, execMsread, msRaw_of_cons s raw rest h]

/-- MSREAD with no sample listed takes a free one. -/
theorem exec_msread_of_nil {s : State} (h : s.ticks = []) :
    exec .msread s =
      .next (complete ({ s with msDraws := s.msDraws + 1 }.log (.sampleMs (Config.msDraw s.msDraws)))
        (some (.ms (msTransform s.scale (Config.msDraw s.msDraws))))) := by
  simp only [exec, execMsread, msRaw_of_nil s h]

/-- What MSREAD answers when a sample is listed. -/
theorem exec_msread_response {s : State} {raw : MsWord} {rest : List MsWord} (h : s.ticks = raw :: rest) :
    ∃ t, exec .msread s = .next t ∧ t.response = some ⟨s.ctx, .ms (msTransform s.scale raw)⟩ :=
  ⟨_, exec_msread_of_cons h, rfl⟩

/-- The words with MSREAD's OP that spell no MSREAD (R71, R120). -/
theorem decode_msread_op_illegal {w : CmdWord} (hop : slice w 15 13 = 4) (h : slice w 12 0 ≠ 0) :
    decode w = .illegal .reservedBits := by
  simp [decode, hop, h]

/-- Settles O19: MSREAD by the source of its sample, with the transform as a chain of tests. -/
theorem msreadReturnsTheScaledSample : Obligations.MsreadReturnsTheScaledSample := by
  constructor
  · intro s result
    have hresult : ∀ raw, .ms (msTransform s.scale raw) = result raw :=
      fun raw => congrArg Result.ms (msTransform_eq_ite s.scale raw)
    refine ⟨rfl, fun raw rest hticks => ?_, fun hticks => ?_⟩
    · rw [exec_msread_of_cons hticks, hresult]; rfl
    · rw [exec_msread_of_nil hticks, hresult]; rfl
  · intro w hop hbits
    rw [← slice_eq_extractLsb w _ _ (by decide)] at hop hbits
    exact ⟨_, decode_msread_op_illegal hop hbits⟩

/-- Settles O33: a right shift is a division by a power of 2, a left shift a multiplication modulo the width. -/
theorem msreadArithmetic : Obligations.MsreadArithmetic := by
  intro s raw rest hticks
  obtain ⟨t, ht, hresponse⟩ := exec_msread_response hticks
  refine ⟨t, _, ht, hresponse, fun h => ?_, fun h => ?_, fun h => ?_, fun h => ?_, fun h => ?_⟩ <;> rw [h]
  · exact toNat_ushiftRight_eq_div raw 6
  · exact toNat_ushiftRight_eq_div raw 3
  · exact msTransform_three raw
  · exact toNat_shiftLeft_eq_mul_mod raw 2
  · exact toNat_shiftLeft_eq_mul_mod raw 4

/-- Settles O34: the three codes are those that are not legal, and every step keeps `ScaleInv`. -/
theorem scaleFallbackIsIdentityAndUnreachable : Obligations.ScaleFallbackIsIdentityAndUnreachable := by
  constructor
  · intro s raw rest hticks hscale
    obtain ⟨t, ht, hresponse⟩ := exec_msread_response hticks
    rw [msTransform_of_not_legal (not_scaleLegal_iff.2 hscale)] at hresponse
    exact ⟨t, ht, hresponse⟩
  · intro s t hs h
    obtain ⟨hlegal, -⟩ := step_keeps_scaleInv h hs
    simpa only [not_or] using mt not_scaleLegal_iff.2 (not_not_intro hlegal)

/-- Settles O35: the transform's equations at the legal codes, with shifts by 6 and 3 to the right and by 2 and 4 to the
left. -/
theorem scaleThreeIsIdentity : Obligations.ScaleThreeIsIdentity := by
  refine ⟨rfl, fun s raw rest hticks => ?_⟩
  obtain ⟨t, ht, hresponse⟩ := exec_msread_response hticks
  refine ⟨t, _, ht, hresponse, fun h => ?_, fun h => ?_, fun h => ?_⟩
  · rw [h, msTransform_three]
  · obtain h | h := h <;> rw [h]
    · exact ⟨6, by decide, msTransform_one raw⟩
    · exact ⟨3, by decide, msTransform_two raw⟩
  · obtain h | h := h <;> rw [h]
    · exact ⟨2, by decide, msTransform_four raw⟩
    · exact ⟨4, by decide, msTransform_five raw⟩

end Sys2Proof.Machine
end

section
/-! SUPPORT. Nothing faults (R140): what a step of each agent is, and that from the invariant each of them answers a next
state. -/

namespace Sys2Proof.Machine

/-! ### The step, by what heads the agenda -/

section
variable {s : State} (hrefused : s.refused = none)
include hrefused

theorem step_of_empty (hqueue : s.queue = []) : step s = resumeTop s := by
  simp [step, turn, hrefused, hqueue]

theorem step_of_resume {rest : List Event} (hqueue : s.queue = .resume :: rest) :
    step s = resumeTop { s with queue := rest } := by
  simp [step, turn, hrefused, hqueue]

theorem step_of_reset {rest : List Event} (hqueue : s.queue = .reset :: rest) :
    step s = .next (blockReset { s with queue := rest }) := by
  simp [step, turn, hrefused, hqueue]

section
variable {c : Ctx} {w : CmdWord} {din : Byte} {rest : List Event} (hqueue : s.queue = .command c w din :: rest)
include hqueue

theorem step_of_waiting_command (hmay : mayIssue s.tx c = false) : step s = resumeTop s := by
  simp [step, turn, hrefused, hqueue, hmay]

theorem step_of_legal_command {i : Instr} (hmay : mayIssue s.tx c = true) (hdecode : decode w = .cmd i) :
    step s = exec i { s with queue := rest, ctx := c, din := din } := by
  simp [step, turn, takeCommand, hrefused, hqueue, hmay, hdecode]

theorem step_of_illegal_command {r : Illegal} (hmay : mayIssue s.tx c = true) (hdecode : decode w = .illegal r) :
    step s = .next (refuse s r) := by
  simp [step, turn, takeCommand, hrefused, hqueue, hmay, hdecode]

end

end

theorem step_of_refused {s : State} {r : Illegal} (h : s.refused = some r) : step s = .refused (.runRefused r) := by
  simp [step, turn, h]

/-! ### From the invariant every operation answers -/

/-- A read-modify-write where a register stands completes, or opens its latch, in either P_ATOMIC mode. -/
theorem rmw_answers {s : State} {a : Nat} (f : Byte → Byte) (d : Option Code) (hreg : inPort s.params a = none)
    (hmapped : (s.bus.read a).isSome = true) : ∃ t, rmw s a f d = .next t := by
  obtain ⟨old, hold⟩ := Option.isSome_iff_exists.1 hmapped
  cases hatomic : s.params.atomic with
  | true => exact ⟨_, rmw_atomic hreg hold hatomic⟩
  | false => exact ⟨_, rmw_two_step hreg hold hatomic⟩

section
variable {s : State} (hs : MachineInv s)
include hs

theorem MachineInv.exec_store_answers {i : Instr} {a : Nat} (ha : storeAddr s.params i = some a) (hw : i.wf = true) :
    ∃ t, exec i s = .next t := by
  have hmem : a ∈ s.params.regAddrs := storeAddr_mem _ _ _ ha
  rw [exec_store ha hw]
  exact rmw_answers _ _ (inPort_of_reg hs.paramsWf hmem) (hs.busMapped a hmem)

/-- RD answers with a draw, or under P_LOOPBACK with an output register's byte. -/
theorem MachineInv.exec_rd_answers (p : Port) {n : Nat} (hn : n < 8) : ∃ t, exec (.rd p n) s = .next t := by
  cases hloop : s.params.loopback with
  | true =>
    obtain ⟨v, hv⟩ := Option.isSome_iff_exists.1 (hs.busMapped _ (outAddr_mem s.params p))
    exact ⟨_, exec_rd_loopback hn hs.paramsWf hloop hv⟩
  | false => exact ⟨_, exec_rd_draw hn hs.paramsWf hloop rfl⟩

theorem MachineInv.exec_answers {i : Instr} (hw : i.wf = true) : ∃ t, exec i s = .next t := by
  cases i with
  | wrc p n v => exact hs.exec_store_answers rfl hw
  | wr p n => exact hs.exec_store_answers rfl hw
  | rd p n => exact hs.exec_rd_answers p (of_decide_eq_true hw)
  | setpwm t f => exact hs.exec_store_answers rfl hw
  | msread => exact ⟨_, rfl⟩

/-- The innermost latch points at a register. -/
theorem MachineInv.resumeTop_answers : ∃ t, resumeTop s = .next t := by
  unfold resumeTop
  split
  · exact ⟨_, rfl⟩
  · next l rest htx =>
    obtain ⟨hmem, -⟩ := hs.latchesOk l (by simp [htx])
    exact ⟨_, commit_next.2 ⟨hs.busMapped _ hmem, rfl⟩⟩

theorem MachineInv.deviceWrite_answers (r : DeviceReg) (v : Byte) : ∃ t, deviceWrite s r v = .next t :=
  ⟨_, deviceWrite_of_isSome v (hs.busMapped _ (regAddr_mem s.params r))⟩

/-- The invariant does not look at the agenda and the command port. -/
theorem MachineInv.take (rest : List Event) (c : Ctx) (din : Byte) :
    MachineInv { s with queue := rest, ctx := c, din := din } :=
  hs.of_same rfl rfl rfl rfl

theorem MachineInv.command_step_answers {c : Ctx} {w : CmdWord} {din : Byte} {rest : List Event}
    (hrefused : s.refused = none) (hqueue : s.queue = .command c w din :: rest) : ∃ t, step s = .next t := by
  cases hmay : mayIssue s.tx c with
  | false =>
    rw [step_of_waiting_command hrefused hqueue hmay]
    exact hs.resumeTop_answers
  | true =>
    cases hdecode : decode w with
    | cmd i =>
      rw [step_of_legal_command hrefused hqueue hmay hdecode]
      exact (hs.take rest c din).exec_answers (wf_of_decode hdecode)
    | illegal r => exact ⟨_, step_of_illegal_command hrefused hqueue hmay hdecode⟩

theorem MachineInv.step_answers (hrefused : s.refused = none) : ∃ t, step s = .next t := by
  cases hqueue : s.queue with
  | nil =>
    rw [step_of_empty hrefused hqueue]
    exact hs.resumeTop_answers
  | cons e rest =>
    cases e with
    | command c w din => exact hs.command_step_answers hrefused hqueue
    | resume =>
      rw [step_of_resume hrefused hqueue]
      exact (hs.take rest s.ctx s.din).resumeTop_answers
    | write r v =>
      rw [step_of_write hrefused hqueue]
      exact (hs.take rest s.ctx s.din).deviceWrite_answers r v
    | reset => exact ⟨_, step_of_reset hrefused hqueue⟩

theorem MachineInv.step_ne_fault (e : Fault) : step s ≠ .fault e := by
  cases hrefused : s.refused with
  | some r => simp [step_of_refused hrefused]
  | none =>
    obtain ⟨t, ht⟩ := hs.step_answers hrefused
    simp [ht]

end

/-- Settles O48: under the invariant every address that an agent reads or writes is on the bus. -/
theorem everyLegalCommandCompletes : Obligations.EveryLegalCommandCompletes :=
  ⟨fun _ _ hs hw => hs.exec_answers hw, fun _ hs hrefused => hs.step_answers hrefused,
    fun _ e hs => hs.step_ne_fault e⟩

/-- Settles O9: `mayIssue` asks nothing of the context when no transaction is open. -/
theorem everyContextMayIssueEveryCommand : Obligations.EveryContextMayIssueEveryCommand := by
  intro s c i din rest hs hrefused htx hw hqueue
  have hmay : mayIssue s.tx c = true := by rw [htx]; rfl
  exact ⟨step_of_legal_command hrefused hqueue hmay (decode_encode hw), hs.step_answers hrefused⟩

end Sys2Proof.Machine
end

section
/-! SUPPORT. The launch state and a reset of the block (R160 to R162). -/

namespace Sys2Proof.Machine

/-- At launch every device register holds its free launch value (R26, R28, R161). -/
theorem reset_bus_read (r : DeviceReg) :
    State.reset.bus.read (regAddr State.reset.params r) = some (Config.launchByte (regAddr State.reset.params r)) := by
  cases r with
  | out p => cases p <;> rfl
  | tcr t => cases t <;> rfl

/-- With no latch listed every context is Idle. -/
theorem phase_of_no_latch {s : State} (htx : s.tx = []) (c : Ctx) : s.phase c = .idle := by
  simp [State.phase, State.latch, htx]

/-- Settles O14: the launch bus, register by register, and that a block reset keeps the bus. -/
theorem launchStateOfTheBlock : Obligations.LaunchStateOfTheBlock :=
  ⟨rfl, phase_of_no_latch rfl, rfl, fun p => reset_bus_read (.out p), fun t => reset_bus_read (.tcr t), blockReset_bus⟩

end Sys2Proof.Machine
end

section
/-! SUPPORT. SCALE and the divider in TCR[A] (R164, R168, R169): what an undisturbed command that stores leaves for the next
command, whatever the parameters, and when TCR[A][2:0] = SCALE holds after a SETPWM. -/

namespace Sys2Proof.Machine

section
variable {i : Instr} {s t : State} {a : Nat} (ha : storeAddr s.params i = some a) (h : runAlone i s = .next t)
include ha h

/-- Without `Params.wf` the read half may give a draw instead of the bus's byte; the rest is as in `runAlone_store_next`. -/
theorem runAlone_store_committed :
    ∃ old u, regRead s a = .ok (old, u) ∧ t = committed u a (storeByte s.din old i) (scaleOf i) := by
  obtain ⟨-, ⟨b, old, u, hb, hread, -, rfl⟩ | ⟨p, n, v, u, rfl, -, -⟩ | ⟨rfl, -⟩⟩ := runAlone_next h
  · rw [ha, Option.some.injEq] at hb
    subst hb
    exact ⟨old, u, hread, rfl⟩
  · simp [storeAddr] at ha
  · simp [storeAddr] at ha

/-- A command that stores leaves the parameters, the caller and the samples of MSRAW alone. -/
theorem runAlone_store_same : t.params = s.params ∧ t.ctx = s.ctx ∧ t.ticks = s.ticks := by
  obtain ⟨old, u, hread, rfl⟩ := runAlone_store_committed ha h
  rw [regRead_frame hread]
  simp

theorem runAlone_store_read : ∃ old, t.bus.read a = some (storeByte s.din old i) := by
  obtain ⟨old, u, -, rfl⟩ := runAlone_store_committed ha h
  exact ⟨old, by simp⟩

end

/-- Settles O36: SETPWM on Timer A leaves its code in SCALE, and the caller and the samples as they were. -/
theorem msreadFollowsTheNewScale : Obligations.MsreadFollowsTheNewScale := by
  refine ⟨fun s t f raw rest h hticks => ?_, by decide⟩
  obtain ⟨-, hctx, hsame⟩ := runAlone_store_same rfl h
  have hscale : t.scale = dividerCode .a f := runAlone_scale h
  rw [← hctx, ← hscale]
  exact exec_msread_response (hsame.trans hticks)

/-- TCR[A][2:0] = SCALE, for the byte that TCR[A] holds. -/
theorem scaleMatched_iff {s : State} {x : Byte} (hx : s.bus.read s.params.addrTcrA = some x) :
    scaleMatched s ↔ x.extractLsb 2 0 = s.scale := by
  unfold scaleMatched
  rw [hx, Option.map_some, Option.some.injEq, BitVec.setWidth_eq_extractLsb' (by decide)]
  rfl

/-- After an undisturbed SETPWM that writes TCR[A] the codes match when the command's code is the SCALE it leaves. -/
theorem scaleMatched_iff_of_runAlone_setpwm {tm : Timer} {f : FreqClass} {s t : State}
    (htarget : target s.params tm = s.params.addrTcrA) (h : runAlone (.setpwm tm f) s = .next t) :
    scaleMatched t ↔ dividerCode tm f = t.scale := by
  have ha : storeAddr s.params (.setpwm tm f) = some s.params.addrTcrA := congrArg some htarget
  obtain ⟨hparams, -⟩ := runAlone_store_same ha h
  obtain ⟨old, hread⟩ := runAlone_store_read ha h
  rw [← hparams] at hread
  rw [scaleMatched_iff hread]
  simp only [storeByte, csUpdate_extractLsb_low]

/-- In legacy mode SETPWM on Timer B writes TCR[A] (R105). -/
theorem target_b_of_legacy {p : Params} (h : p.legacyTimerB = true) : target p .b = p.addrTcrA := by
  simp [target, h, tcrAddr]

theorem not_scaleMatched_of_legacy {f : FreqClass} {s t : State} (hlegacy : s.params.legacyTimerB = true)
    (hne : dividerCode .b f ≠ s.scale) (h : runAlone (.setpwm .b f) s = .next t) : ¬ scaleMatched t := by
  have hscale : t.scale = s.scale := runAlone_scale h
  rw [scaleMatched_iff_of_runAlone_setpwm (target_b_of_legacy hlegacy) h, hscale]
  exact hne

theorem scaleMatched_iff_of_deviceWrite {s t : State} {v : Byte} (h : deviceWrite s (.tcr .a) v = .next t) :
    scaleMatched t ↔ v.extractLsb 2 0 = s.scale := by
  obtain ⟨-, rfl⟩ := deviceWrite_next h
  exact scaleMatched_iff (Memory.read_write_same _ _ _)

/-- Settles O37: in each clause TCR[A] holds a known byte, whose bits 2:0 are compared with SCALE. -/
theorem scaleMatchesPrimaryDivider : Obligations.ScaleMatchesPrimaryDivider := by
  refine ⟨fun s x raw rest hmatch hx hticks => ?_, fun f s t h => ?_, fun s t v hne h => ?_,
    fun f s t hlegacy hne h => not_scaleMatched_of_legacy hlegacy hne h⟩
  · rw [(scaleMatched_iff hx).1 hmatch]
    exact exec_msread_response hticks
  · exact (scaleMatched_iff_of_runAlone_setpwm rfl h).2 (runAlone_scale h).symm
  · exact mt (scaleMatched_iff_of_deviceWrite h).1 hne

/-- Settles O38: the one byte stored is TCR[A]'s, and TCR[Timer B] stands at another address. -/
theorem legacyTimerBMismatch : Obligations.LegacyTimerBMismatch := by
  intro f s t hp hlegacy h
  obtain ⟨old, -, hread, hothers⟩ := runAlone_setpwm_stores hp h
  rw [target_b_of_legacy hlegacy] at hread hothers
  have hne : s.params.addrTcrB ≠ s.params.addrTcrA := mt (tcrAddr_inj hp (q := .b) (r := .a)) (by decide)
  exact ⟨⟨_, hread, csUpdate_extractLsb_low _ old⟩, runAlone_scale h, hothers _ hne,
    fun hcode => not_scaleMatched_of_legacy hlegacy hcode h⟩

end Sys2Proof.Machine
end

section
/-! SUPPORT. What comes between the two steps of a read-modify-write (R166, R167): the first step changes nothing but the
latch, and the second overwrites the whole byte. -/

namespace Sys2Proof.Machine

/-- Without P_ATOMIC the first step of a command that stores opens the caller's latch. -/
theorem exec_store_two_step {i : Instr} {s : State} {a : Nat} {old : Byte} (hp : s.params.wf = true)
    (hatomic : s.params.atomic = false) (hw : i.wf = true) (ha : storeAddr s.params i = some a)
    (hold : s.bus.read a = some old) :
    exec i s = .next (openLatch (s.log (.readReg a old)) a (storeByte s.din old i) (scaleOf i)) := by
  rw [exec_store ha hw]
  exact rmw_two_step (inPort_of_reg hp (storeAddr_mem _ _ _ ha)) hold hatomic

/-- With P_ATOMIC no command opens a latch. -/
theorem exec_tx_of_atomic {i : Instr} {s t : State} (hatomic : s.params.atomic = true) (h : exec i s = .next t) :
    t.tx = s.tx := by
  obtain ⟨-, ⟨a, -, hrmw⟩ | ⟨p, n, v, u, -, hread, rfl⟩ | ⟨-, rfl⟩⟩ := exec_next h
  · obtain ⟨old, u, hread, ⟨-, -, rfl⟩ | ⟨hfalse, -⟩⟩ := rmw_next hrmw
    · obtain ⟨-, -, htx, -⟩ := regRead_same hread
      rw [committed_tx, htx]
    · rw [hatomic] at hfalse; cases hfalse
  · obtain ⟨-, -, htx, -⟩ := regRead_same hread
    exact htx
  · simp

/-- The converse of `resumeTop_next` for an open latch. -/
theorem resumeTop_of_latch {s : State} {l : Latch} {rest : List Latch} (htx : s.tx = l :: rest)
    (hmapped : (s.bus.read l.addr).isSome = true) :
    resumeTop s = .next (committed { s with tx := rest } l.addr l.value l.scale) := by
  simp only [resumeTop, htx]
  exact commit_next.2 ⟨hmapped, rfl⟩

/-- The second step replaces whatever byte the register holds by the latch's value (R167). -/
theorem resumeTop_overwrites {s : State} {l : Latch} {rest : List Latch} {x : Byte} (htx : s.tx = l :: rest)
    (hread : s.bus.read l.addr = some x) : ∃ w, resumeTop s = .next w ∧ w.bus.read l.addr = some l.value :=
  ⟨_, resumeTop_of_latch htx (by simp [hread]), by simp⟩

/-- Another writer's write is on the bus, and no latch changes. -/
theorem deviceWrite_stores {s : State} {r : DeviceReg} (x : Byte)
    (hmapped : (s.bus.read (regAddr s.params r)).isSome = true) :
    ∃ u, deviceWrite s r x = .next u ∧ u.tx = s.tx ∧ u.bus.read (regAddr s.params r) = some x :=
  ⟨_, deviceWrite_of_isSome x hmapped, rfl, Memory.read_write_same _ _ _⟩

/-- The byte of a command that nothing disturbs is on the bus, and no latch is open that was not before. -/
theorem runAlone_stores {i : Instr} {s : State} {a : Nat} {old : Byte} (hp : s.params.wf = true) (hw : i.wf = true)
    (ha : storeAddr s.params i = some a) (hold : s.bus.read a = some old) :
    ∃ u, runAlone i s = .next u ∧ u.tx = s.tx ∧ u.bus.read a = some (storeByte s.din old i) :=
  ⟨_, runAlone_store hw ha (inPort_of_reg hp (storeAddr_mem _ _ _ ha)) hold, by simp, by simp⟩

/-- Settles O42: the second step overwrites what stands at the latch's address, whoever has stored it there. -/
theorem lostUpdateBetweenTheHalves : Obligations.LostUpdateBetweenTheHalves := by
  refine ⟨fun i s a old hp hatomic hw ha hold => ?_, fun i s t => exec_tx_of_atomic⟩
  refine ⟨_, exec_store_two_step hp hatomic hw ha hold, fun r x hr => ?_, fun j c din hjw hja => ?_⟩
  · subst hr
    obtain ⟨u, hu, htx, hread⟩ := deviceWrite_stores (r := r) (s := openLatch
      (s.log (.readReg (regAddr s.params r) old)) (regAddr s.params r) (storeByte s.din old i) (scaleOf i)) x
      (Option.isSome_of_mem hold)
    obtain ⟨w, hw', hvalue⟩ := resumeTop_overwrites htx hread
    exact ⟨u, w, hu, hread, hw', hvalue⟩
  · obtain ⟨u, hu, htx, hread⟩ := runAlone_stores
      (s := { openLatch (s.log (.readReg a old)) a (storeByte s.din old i) (scaleOf i) with ctx := c, din := din })
      hp hjw hja hold
    obtain ⟨w, hw', hvalue⟩ := resumeTop_overwrites htx hread
    exact ⟨u, w, hu, hread, hw', hvalue⟩

/-! ### The steps of the agenda -/

section
variable {s : State} {c : Ctx} {din : Byte} {rest : List Event}

/-- The step that issues a command that stores, without P_ATOMIC. -/
theorem step_opens_latch {i : Instr} {a : Nat} {old : Byte} (hrefused : s.refused = none)
    (hqueue : s.queue = .command c (encode i) din :: rest) (hissue : mayIssue s.tx c = true)
    (hp : s.params.wf = true) (hatomic : s.params.atomic = false) (hw : i.wf = true)
    (ha : storeAddr s.params i = some a) (hold : s.bus.read a = some old) :
    step s = .next { s with
      queue := rest, ctx := c, din := din, response := none, trace := .readReg a old :: s.trace,
      tx := ⟨c, a, storeByte din old i, scaleOf i⟩ :: s.tx } :=
  (step_of_legal_command hrefused hqueue hissue (decode_encode hw)).trans (exec_store_two_step hp hatomic hw ha hold)

/-- The step that issues MSREAD when a sample is listed. -/
theorem step_msread {raw : MsWord} {ticks : List MsWord} (hrefused : s.refused = none)
    (hqueue : s.queue = .command c (encode .msread) din :: rest) (hissue : mayIssue s.tx c = true)
    (hticks : s.ticks = raw :: ticks) :
    step s = .next { s with
      queue := rest, ctx := c, din := din, ticks := ticks, index := s.index + 1, trace := .sampleMs raw :: s.trace,
      response := some ⟨c, .ms (msTransform s.scale raw)⟩ } :=
  (step_of_legal_command hrefused hqueue hissue (decode_encode rfl)).trans (exec_msread_of_cons hticks)

/-- The step that resumes the innermost open latch. -/
theorem step_commits_latch {l : Latch} {tx : List Latch} (hrefused : s.refused = none)
    (hqueue : s.queue = .resume :: rest) (htx : s.tx = l :: tx) (hmapped : (s.bus.read l.addr).isSome = true) :
    step s = .next (committed { s with queue := rest, tx := tx } l.addr l.value l.scale) :=
  (step_of_resume hrefused hqueue).trans (resumeTop_of_latch htx hmapped)

end

/-- While one transaction is open every interrupt context but its own may issue a command (R147). -/
theorem mayIssue_irq_of_one_latch {l : Latch} {k : Nat} (h : l.ctx ≠ .irq k) : mayIssue [l] (.irq k) = true := by
  simp [mayIssue, h]

/-- Settles O41: SETPWM's first step only opens the latch, MSREAD reads SCALE as it stands, and the second step commits what
the latch holds. -/
theorem msreadBetweenStepsSeesTheOldPair : Obligations.MsreadBetweenStepsSeesTheOldPair := by
  intro s c k f d d' rest old raw ticks hp hatomic hrefused htx hc hqueue hold hticks
  have hissue : mayIssue s.tx c = true := by rw [htx]; rfl
  have hirq : mayIssue (⟨c, s.params.addrTcrA, csUpdate (dividerCode .a f) old, some (dividerCode .a f)⟩ :: s.tx)
      (.irq k) = true := by rw [htx]; exact mayIssue_irq_of_one_latch hc
  exact ⟨_, _, _, step_opens_latch hrefused hqueue hissue hp hatomic rfl rfl hold,
    step_msread hrefused rfl hirq hticks, step_commits_latch hrefused rfl rfl (Option.isSome_of_mem hold),
    rfl, rfl, rfl, rfl, rfl, rfl, storesOnly_of_write rfl⟩

end Sys2Proof.Machine
end

section
/-! SUPPORT. Decoding against encoding (30_encoding.md sections 4 and 6), and the illegal words (R72, R143). -/

namespace Sys2Proof

/-- Settles O1: the well-formed commands are listed out, and each is decoded from its word. -/
theorem decodingAnEncodedCommandGivesItBack : Obligations.DecodingAnEncodedCommandGivesItBack :=
  fun _ hw => decode_encode hw

/-- Settles O2: the word and the encoding of what it decodes to have the same four fields, which determine a word. -/
theorem decodedCommandEncodesToItsWord : Obligations.DecodedCommandEncodesToItsWord :=
  fun _ _ h => ⟨wf_of_decode h, encode_of_decode h⟩

/-- Settles O5: the word laid out as two bytes is read back as it was. -/
theorem byteImageGivesTheCommandBack : Obligations.ByteImageGivesTheCommandBack := by
  intro i rest hw
  simp only [encodeBytes, wordBytes, List.cons_append, List.nil_append, decodeBytes, wordOfBytes_wordBytes,
    decode_encode hw]

/-- Settles O6: each word is the encoding of its command. -/
theorem writtenOutWordsDecode : Obligations.WrittenOutWordsDecode :=
  ⟨decode_encode (i := .wrc .b 3 false) rfl, decode_encode (i := .wrc .d 7 true) rfl,
    decode_encode (i := .wr .d 1) rfl, decode_encode (i := .rd .c 6) rfl,
    decode_encode (i := .setpwm .a .hz1k) rfl, decode_encode (i := .setpwm .b .hz122) rfl,
    decode_encode (i := .setpwm .c .hz30) rfl, decode_encode (i := .msread) rfl⟩

/-- What the TMR format refuses, and why. -/
theorem tmrFormat_illegal {w : CmdWord} {r : Illegal} :
    tmrFormat w = .illegal r ↔
      r = .reservedBitsTimerOrFreq ∧ (slice w 7 0 ≠ 0 ∨ slice w 12 11 = 3 ∨ slice w 10 8 = 7) := by
  rw [← timerOf_eq_none (slice_upper_lt w), ← freqOf_eq_none (slice_lower_lt w)]
  unfold tmrFormat
  split
  · next hz => simp [hz, eq_comm]
  · next hz =>
    split
    · next t f ht hf => simp [not_not.1 hz, ht, hf]
    · next hno =>
      have hnone : timerOf (slice w 12 11) = none ∨ freqOf (slice w 10 8) = none := by
        cases ht : timerOf (slice w 12 11) with
        | none => exact .inl rfl
        | some t => exact .inr (Option.eq_none_iff_forall_ne_some.2 fun f hf => hno t f ht hf)
      exact ⟨fun h => ⟨(Decoded.illegal.inj h).symm, .inr hnone⟩, fun ⟨hr, _⟩ => congrArg Decoded.illegal hr.symm⟩

/-- The reason that an OP group gives (R143). -/
def illegalReason (op : Nat) : Illegal :=
  if op ≤ 2 then .reservedBitsOrPort
  else if op = 3 then .reservedBitsTimerOrFreq
  else if op = 4 then .reservedBits
  else .reservedOpcode

/-- What makes a word of an OP group illegal (R72). -/
def BadFields (w : CmdWord) : Nat → Prop
  | 0 => slice w 6 0 ≠ 0 ∨ slice w 12 11 = 3
  | 1 => slice w 7 0 ≠ 0 ∨ slice w 12 11 = 3
  | 2 => slice w 7 0 ≠ 0 ∨ slice w 12 11 = 3
  | 3 => slice w 7 0 ≠ 0 ∨ slice w 12 11 = 3 ∨ slice w 10 8 = 7
  | 4 => slice w 12 0 ≠ 0
  | _ => True

/-- The decoder refuses a word for the fields of its OP group, with that group's reason. -/
theorem decode_illegal_iff {w : CmdWord} {r : Illegal} :
    decode w = .illegal r ↔ r = illegalReason (slice w 15 13) ∧ BadFields w (slice w 15 13) := by
  have hop := slice_op_lt w
  unfold decode
  generalize slice w 15 13 = op at hop
  interval_cases op
  · exact pinFormat_illegal
  · exact pinFormat_illegal
  · exact pinFormat_illegal
  · exact tmrFormat_illegal
  · by_cases hz : slice w 12 0 = 0 <;> simp [hz, BadFields, illegalReason, eq_comm]
  · simp [BadFields, illegalReason, eq_comm]
  · simp [BadFields, illegalReason, eq_comm]
  · simp [BadFields, illegalReason, eq_comm]

theorem exists_illegal_iff {w : CmdWord} : (∃ r, decode w = .illegal r) ↔ BadFields w (slice w 15 13) := by
  simp [decode_illegal_iff]

/-- A word of a given OP with a bad field is illegal. -/
theorem illegal_of_badFields {w : CmdWord} {op : Nat} (hop : (w.extractLsb 15 13).toNat = op)
    (hbad : BadFields w op) : ∃ r, decode w = .illegal r := by
  rw [← slice_eq_extractLsb w _ _ (by decide)] at hop
  exact exists_illegal_iff.2 (hop ▸ hbad)

/-- R72's list of conditions is `BadFields`, group by group. -/
theorem badFields_iff {w : CmdWord} {op : Nat} (hop : op < 8) :
    BadFields w op ↔
      (op = 5 ∨ op = 6 ∨ op = 7) ∨
      (op = 0 ∧ slice w 6 0 ≠ 0) ∨
      ((op = 1 ∨ op = 2 ∨ op = 3) ∧ slice w 7 0 ≠ 0) ∨
      (op = 4 ∧ slice w 12 0 ≠ 0) ∨
      ((op = 0 ∨ op = 1 ∨ op = 2) ∧ slice w 12 11 = 3) ∨
      (op = 3 ∧ slice w 12 11 = 3) ∨
      (op = 3 ∧ slice w 10 8 = 7) := by
  interval_cases op <;> simp [BadFields]

end Sys2Proof

namespace Sys2Proof.Machine

/-- Settles O4: the decoder's refusals group by group, and the step that meets an illegal word. -/
theorem illegalWordsAndTheirReasons : Obligations.IllegalWordsAndTheirReasons := by
  refine ⟨fun w => ?_, fun w => ?_, fun w r h => ?_, fun s c w din rest r hrefused hqueue hmay hdecode =>
    step_of_illegal_command hrefused hqueue hmay hdecode⟩
  · simp only [← slice_eq_extractLsb w _ _ (show 13 ≤ 15 by decide), ← slice_eq_extractLsb w _ _ (show 0 ≤ 6 by decide),
      ← slice_eq_extractLsb w _ _ (show 11 ≤ 12 by decide), ← slice_eq_extractLsb w _ _ (show 0 ≤ 7 by decide),
      ← slice_eq_extractLsb w _ _ (show 0 ≤ 12 by decide), ← slice_eq_extractLsb w _ _ (show 8 ≤ 10 by decide)]
    exact exists_illegal_iff.trans (badFields_iff (slice_op_lt w))
  · cases h : decode w with
    | cmd i => exact .inr ⟨i, rfl, encode_of_decode h⟩
    | illegal r => exact .inl ⟨r, rfl⟩
  · obtain ⟨hr, -⟩ := decode_illegal_iff.1 h
    rwa [slice_eq_extractLsb w _ _ (by decide)] at hr

end Sys2Proof.Machine
end

section
/-! SUPPORT. The invariant under every step (R8, R22, R30, R55, R147): what keeps it, one lemma for each update and each kind
of step. -/

namespace Sys2Proof.Machine

/-! ### The parameters -/

theorem exec_params {i : Instr} {s t : State} (h : exec i s = .next t) : t.params = s.params := by
  obtain ⟨-, ⟨a, -, hrmw⟩ | ⟨p, n, v, u, -, hread, rfl⟩ | ⟨-, rfl⟩⟩ := exec_next h
  · obtain ⟨old, u, hread, hcase⟩ := rmw_next hrmw
    obtain ⟨hparams, -⟩ := regRead_same hread
    obtain ⟨-, -, rfl⟩ | ⟨-, rfl⟩ := hcase
    · rw [committed_params, hparams]
    · exact hparams
  · obtain ⟨hparams, -⟩ := regRead_same hread
    exact hparams
  · simp

theorem resumeTop_params {s t : State} (h : resumeTop s = .next t) : t.params = s.params := by
  obtain ⟨-, rfl⟩ | ⟨l, rest, -, -, rfl⟩ := resumeTop_next h
  · rfl
  · exact committed_params _ _ _ _

theorem step_params {s t : State} (h : step s = .next t) : t.params = s.params := by
  obtain ⟨-, hcase⟩ := step_next h
  obtain ⟨_, _, _, _, _, -, -, -, rfl⟩ | ⟨_, _, _, _, _, -, -, -, hexec⟩ | ⟨hresume, -⟩ | ⟨_, -, hresume⟩ |
    ⟨_, _, _, -, hwrite⟩ | ⟨_, -, rfl⟩ := hcase
  · rfl
  · exact (exec_params hexec :)
  · exact resumeTop_params hresume
  · exact (resumeTop_params hresume :)
  · obtain ⟨-, rfl⟩ := deviceWrite_next hwrite
    rfl
  · rfl

/-- Settles O50: no operation of a step updates the parameters. -/
theorem noStepChangesTheParameters : Obligations.NoStepChangesTheParameters := fun _ _ h => step_params h

/-! ### The invariant -/

/-- Settles O46: the launch bus lists the six device registers, and no latch is open. -/
theorem resetMeetsTheInvariant : Obligations.ResetMeetsTheInvariant where
  paramsWf := by decide
  busWf := reset_bus_wf
  busMapped := by decide
  busOnly := by simp [State.reset, launchBus, Params.regAddrs]
  scaleOk := scaleLegal_three
  latchesOk := by simp [State.reset]
  nesting := by simp [State.reset, nested]
  atomicIdle := fun _ => rfl

section
variable {s : State} (hs : MachineInv s)
include hs

/-- A write to a device register, with or without a legal SCALE write. -/
theorem MachineInv.of_write {t : State} {a : Nat} {v : Byte} (ha : a ∈ s.params.regAddrs)
    (hparams : t.params = s.params) (hbus : t.bus = s.bus.write a v) (hscale : scaleLegal t.scale)
    (htx : t.tx = s.tx) : MachineInv t where
  paramsWf := hparams ▸ hs.paramsWf
  busWf := hbus ▸ Memory.write_wf _ _ _ hs.busWf
  busMapped := by
    rw [hparams, hbus]
    exact fun b hb => Memory.isSome_write _ _ _ _ (hs.busMapped b hb)
  busOnly := by
    rw [hparams, hbus]
    intro c hc
    obtain rfl | hc := Memory.mem_write _ _ _ _ hc
    · exact ha
    · exact hs.busOnly c hc
  scaleOk := hscale
  latchesOk := by rw [hparams, htx]; exact hs.latchesOk
  nesting := htx ▸ hs.nesting
  atomicIdle := by rw [hparams, htx]; exact hs.atomicIdle

/-- The write half that a well-formed latch describes. -/
theorem MachineInv.committed {l : Latch} (hl : latchOk s.params l) :
    MachineInv (committed s l.addr l.value l.scale) := by
  obtain ⟨haddr, hcode⟩ := hl
  refine hs.of_write haddr (committed_params _ _ _ _) (committed_bus _ _ _ _) ?_ (committed_tx _ _ _ _)
  rw [committed_scale]
  cases hd : l.scale with
  | none => exact hs.scaleOk
  | some d =>
    rw [hd] at hcode
    obtain ⟨hlegal, -⟩ := hcode
    exact hlegal

/-- A new latch of a context that may issue a command. -/
theorem MachineInv.openLatch {a : Nat} {v : Byte} {d : Option Code} (hl : latchOk s.params ⟨s.ctx, a, v, d⟩)
    (hmay : mayIssue s.tx s.ctx = true) (hatomic : s.params.atomic = false) : MachineInv (openLatch s a v d) where
  paramsWf := hs.paramsWf
  busWf := hs.busWf
  busMapped := hs.busMapped
  busOnly := hs.busOnly
  scaleOk := hs.scaleOk
  latchesOk := List.forall_mem_cons.2 ⟨hl, hs.latchesOk⟩
  nesting := nested_cons hs.nesting hmay
  atomicIdle := fun h => absurd (hatomic.symm.trans h) Bool.false_ne_true

/-- With the innermost latch gone. -/
theorem MachineInv.pop {l : Latch} {rest : List Latch} (htx : s.tx = l :: rest) : MachineInv { s with tx := rest } where
  paramsWf := hs.paramsWf
  busWf := hs.busWf
  busMapped := hs.busMapped
  busOnly := hs.busOnly
  scaleOk := hs.scaleOk
  latchesOk := fun x hx => hs.latchesOk x (htx ▸ List.mem_cons_of_mem l hx)
  nesting := nested_tail (htx ▸ hs.nesting)
  atomicIdle := fun h => absurd (htx.symm.trans (hs.atomicIdle h)) (List.cons_ne_nil l rest)

theorem MachineInv.top_latchOk {l : Latch} {rest : List Latch} (htx : s.tx = l :: rest) : latchOk s.params l :=
  hs.latchesOk l (htx ▸ List.mem_cons_self)

theorem MachineInv.regRead {u : State} {a : Nat} {v : Byte} (h : regRead s a = .ok (v, u)) : MachineInv u := by
  obtain ⟨hparams, hscale, htx, hbus, -⟩ := regRead_same h
  exact hs.of_same hparams hbus hscale htx

theorem MachineInv.exec {i : Instr} {t : State} (hmay : mayIssue s.tx s.ctx = true) (h : exec i s = .next t) :
    MachineInv t := by
  obtain ⟨-, ⟨a, ha, hrmw⟩ | ⟨p, n, v, u, -, hread, rfl⟩ | ⟨-, rfl⟩⟩ := exec_next h
  · obtain ⟨old, u, hread, hcase⟩ := rmw_next hrmw
    have hu : MachineInv u := hs.regRead hread
    obtain ⟨hparams, -, htx, -, -, -, hctx, -⟩ := regRead_same hread
    have hl : latchOk u.params ⟨u.ctx, a, storeByte s.din old i, scaleOf i⟩ :=
      hparams ▸ latchOk_of_storeAddr hs.paramsWf ha _ _ _
    obtain ⟨-, -, rfl⟩ | ⟨hatomic, rfl⟩ := hcase
    · exact hu.committed hl
    · exact hu.openLatch hl (by rwa [htx, hctx]) (by rwa [hparams])
  · exact (hs.regRead hread).of_same rfl rfl rfl rfl
  · exact hs.of_same (by simp) (by simp) (by simp) (by simp)

theorem MachineInv.resumeTop {t : State} (h : resumeTop s = .next t) : MachineInv t := by
  obtain ⟨-, rfl⟩ | ⟨l, rest, htx, -, rfl⟩ := resumeTop_next h
  · exact hs.of_same rfl rfl rfl rfl
  · exact (hs.pop htx).committed (hs.top_latchOk htx)

theorem MachineInv.deviceWrite {t : State} {r : DeviceReg} {v : Byte} (h : deviceWrite s r v = .next t) :
    MachineInv t := by
  obtain ⟨-, rfl⟩ := deviceWrite_next h
  exact hs.of_write (regAddr_mem s.params r) rfl rfl hs.scaleOk rfl

theorem MachineInv.blockReset : MachineInv (blockReset s) where
  paramsWf := hs.paramsWf
  busWf := hs.busWf
  busMapped := hs.busMapped
  busOnly := hs.busOnly
  scaleOk := scaleLegal_three
  latchesOk := by simp
  nesting := by simp [nested]
  atomicIdle := fun _ => rfl

theorem MachineInv.step {t : State} (h : step s = .next t) : MachineInv t := by
  obtain ⟨-, hcase⟩ := step_next h
  obtain ⟨_, _, _, _, _, -, -, -, rfl⟩ | ⟨c, _, d, rest, _, -, hmay, -, hexec⟩ | ⟨hresume, -⟩ | ⟨rest, -, hresume⟩ |
    ⟨_, _, rest, -, hwrite⟩ | ⟨rest, -, rfl⟩ := hcase
  · exact hs.of_same rfl rfl rfl rfl
  · exact (hs.take rest c d).exec hmay hexec
  · exact hs.resumeTop hresume
  · exact (hs.take rest s.ctx s.din).resumeTop hresume
  · exact (hs.take rest s.ctx s.din).deviceWrite hwrite
  · exact (hs.take rest s.ctx s.din).blockReset

end

/-- Settles O47: each kind of step keeps the invariant; a latch is well formed when it is opened, and its write half
(`MachineInv.committed`) needs no more than that. -/
theorem everyStepKeepsTheInvariant : Obligations.EveryStepKeepsTheInvariant := fun _ _ hs h => hs.step h

/-! ### TCR[A][2:0] = SCALE -/

/-- The equality looks at the parameters, SCALE and TCR[A] only. -/
theorem scaleMatched.of_same {s t : State} (h : scaleMatched s) (hparams : t.params = s.params)
    (hscale : t.scale = s.scale) (hread : t.bus.read s.params.addrTcrA = s.bus.read s.params.addrTcrA) :
    scaleMatched t := by
  unfold scaleMatched
  rw [hparams, hscale, hread]
  exact h

/-- Outside the legacy mode a well-formed latch that points at TCR[A] carries its own code to SCALE, and any other leaves
both alone (R105, R106). -/
theorem scaleMatched.committed {s : State} {l : Latch} (h : scaleMatched s) (hl : latchOk s.params l)
    (hlegacy : s.params.legacyTimerB = false) : scaleMatched (committed s l.addr l.value l.scale) := by
  obtain ⟨-, hcode⟩ := hl
  cases hd : l.scale with
  | some d =>
    rw [hd] at hcode
    obtain ⟨-, haddr, hvalue⟩ := hcode
    simp [scaleMatched, haddr, hvalue]
  | none =>
    rw [hd] at hcode
    have hne : s.params.addrTcrA ≠ l.addr := fun e => absurd (hlegacy.symm.trans (hcode e.symm)) Bool.false_ne_true
    refine h.of_same (committed_params _ _ _ _) (committed_scale _ _ _ _) ?_
    rw [committed_bus, Memory.read_write_other _ _ _ _ hne]

theorem regAddr_ne_tcrA {p : Params} (hp : p.wf = true) {r : DeviceReg} (hr : r ≠ .tcr .a) :
    p.addrTcrA ≠ regAddr p r := by
  cases r with
  | out q => exact (outAddr_ne_tcrAddr hp q .a).symm
  | tcr t => exact fun e => hr (congrArg DeviceReg.tcr (tcrAddr_inj hp (q := .a) (r := t) e).symm)

section
variable {s : State} (hs : MachineInv s) (hlegacy : s.params.legacyTimerB = false) (h : scaleMatched s)
include hs hlegacy h

theorem exec_keeps_scaleMatched {i : Instr} {t : State} (hexec : exec i s = .next t) : scaleMatched t := by
  obtain ⟨-, ⟨a, ha, hrmw⟩ | ⟨p, n, v, u, -, hread, rfl⟩ | ⟨-, rfl⟩⟩ := exec_next hexec
  · obtain ⟨old, u, hread, hcase⟩ := rmw_next hrmw
    obtain ⟨hparams, hscale, -, hbus, -⟩ := regRead_same hread
    have hu : scaleMatched u := h.of_same hparams hscale (by rw [hbus])
    have hl : latchOk u.params ⟨u.ctx, a, storeByte s.din old i, scaleOf i⟩ :=
      hparams ▸ latchOk_of_storeAddr hs.paramsWf ha _ _ _
    obtain ⟨-, -, rfl⟩ | ⟨-, rfl⟩ := hcase
    · exact hu.committed hl (hparams ▸ hlegacy)
    · exact hu.of_same rfl rfl rfl
  · obtain ⟨hparams, hscale, -, hbus, -⟩ := regRead_same hread
    exact h.of_same hparams hscale (congrArg (Memory.read · _) hbus)
  · exact h.of_same (by simp) (by simp) (by simp)

theorem resumeTop_keeps_scaleMatched {t : State} (hresume : resumeTop s = .next t) : scaleMatched t := by
  obtain ⟨-, rfl⟩ | ⟨l, rest, htx, -, rfl⟩ := resumeTop_next hresume
  · exact h
  · have hpopped : scaleMatched { s with tx := rest } := h
    exact hpopped.committed (hs.top_latchOk htx) hlegacy

omit hlegacy in
theorem deviceWrite_keeps_scaleMatched {r : DeviceReg} {v : Byte} {t : State}
    (hcode : r = .tcr .a → v.extractLsb 2 0 = s.scale) (hwrite : deviceWrite s r v = .next t) : scaleMatched t := by
  by_cases hr : r = .tcr .a
  · subst hr
    exact (scaleMatched_iff_of_deviceWrite hwrite).2 (hcode rfl)
  · obtain ⟨-, rfl⟩ := deviceWrite_next hwrite
    exact h.of_same rfl rfl (Memory.read_write_other _ _ _ _ (regAddr_ne_tcrA hs.paramsWf hr))

end

/-- Settles O39: the steps that write TCR[A] outside the legacy mode are those of SETPWM on Timer A, which write SCALE too,
and the other writer's. -/
theorem scaleMatchIsKeptByEveryOtherStep : Obligations.ScaleMatchIsKeptByEveryOtherStep := by
  intro s t hs hlegacy h hother hreset hstep
  obtain ⟨-, hcase⟩ := step_next hstep
  obtain ⟨_, _, _, _, _, -, -, -, rfl⟩ | ⟨c, _, d, rest, _, -, -, -, hexec⟩ | ⟨hresume, -⟩ | ⟨rest, -, hresume⟩ |
    ⟨r, v, rest, hqueue, hwrite⟩ | ⟨rest, hqueue, -⟩ := hcase
  · exact h
  · exact exec_keeps_scaleMatched (hs.take rest c d) hlegacy h hexec
  · exact resumeTop_keeps_scaleMatched hs hlegacy h hresume
  · exact resumeTop_keeps_scaleMatched (hs.take rest s.ctx s.din) hlegacy h hresume
  · exact deviceWrite_keeps_scaleMatched (hs.take rest s.ctx s.din) h (fun hr => hother v rest (hr ▸ hqueue)) hwrite
  · exact absurd hqueue (hreset rest)

end Sys2Proof.Machine
end

section
/-! SUPPORT. The command at the head of the agenda (R48, R141, R147): when it may be issued, that it is executed or refused,
and that it waits no longer than transactions are open. -/

namespace Sys2Proof.Machine

/-! ### Who may issue a command -/

/-- The main context waits while a transaction is open. -/
theorem mayIssue_main_of_latch {l : Latch} {tx rest : List Latch} (htx : tx = l :: rest) :
    mayIssue tx .main = false := by
  subst htx
  rfl

/-- An interrupt context with no latch of its own may issue a command. -/
theorem mayIssue_irq {tx : List Latch} {k : Nat} (h : ∀ l ∈ tx, l.ctx ≠ .irq k) : mayIssue tx (.irq k) = true := by
  cases tx with
  | nil => rfl
  | cons x t => simpa [mayIssue] using h

theorem phase_eq_idle {s : State} {c : Ctx} : s.phase c = .idle ↔ ∀ l ∈ s.tx, l.ctx ≠ c := by
  simp [State.phase, State.latch]

/-- The bound is above the number of every interrupt context with an open latch. -/
theorem lt_irqBound {tx : List Latch} {l : Latch} {k : Nat} (hl : l ∈ tx) (hk : l.ctx = .irq k) : k < irqBound tx := by
  induction tx with
  | nil => cases hl
  | cons x t ih =>
    unfold irqBound
    obtain rfl | hl := List.mem_cons.1 hl
    · simp only [hk]
      omega
    · have hlt := ih hl
      split
      · exact hlt
      · omega

theorem mayIssue_freshCtx (tx : List Latch) : mayIssue tx (freshCtx tx) = true := by
  cases tx with
  | nil => rfl
  | cons x t => exact mayIssue_irq fun l hl hk => absurd (lt_irqBound hl hk) (Nat.lt_irrefl _)

/-! ### Its step -/

/-- Settles O7: `step_of_legal_command`, and the caller that withFetchWord puts first may issue its word. -/
theorem stepRunsTheDecodedCommand : Obligations.StepRunsTheDecodedCommand :=
  ⟨fun _ _ _ _ _ _ hrefused hqueue hmay hdecode => step_of_legal_command hrefused hqueue hmay hdecode,
    fun s nbits w _ hrefused hdecode => step_of_legal_command (s := s.withFetchWord nbits w) hrefused rfl
      (mayIssue_freshCtx s.tx) (decodeTableWord_eq_some.1 hdecode)⟩

/-- Settles O8: the step is `refuse`, and after it `turn` answers nothing but a refusal. -/
theorem illegalCommandIsRefusedForGood : Obligations.IllegalCommandIsRefusedForGood := by
  refine ⟨fun s c w din rest r hrefused hqueue hmay hdecode => ?_, fun s r h => ⟨step_of_refused h, ?_⟩⟩
  · exact ⟨_, step_of_illegal_command hrefused hqueue hmay hdecode, rfl, rfl, rfl, rfl, rfl, rfl, rfl, rfl, rfl, rfl, rfl⟩
  · rintro ⟨hnone, -⟩
    rw [h] at hnone
    cases hnone

/-! ### Nesting -/

/-- A command that nothing disturbs closes the latch it opens. -/
theorem runAlone_tx {i : Instr} {s t : State} (h : runAlone i s = .next t) : t.tx = s.tx := by
  obtain ⟨-, ⟨a, old, u, -, hread, -, rfl⟩ | ⟨p, n, v, u, -, hread, rfl⟩ | ⟨-, rfl⟩⟩ := runAlone_next h
  · obtain ⟨-, -, htx, -⟩ := regRead_same hread
    rw [committed_tx, htx]
  · obtain ⟨-, -, htx, -⟩ := regRead_same hread
    exact htx
  · exact msRaw_tx s

/-- The write half stores the latch's value and nothing else. -/
theorem committed_storesOnly (s : State) (a : Nat) (v : Byte) (d : Option Code) :
    storesOnly s (committed s a v d) a v :=
  storesOnly_of_write (committed_bus s a v d)

/-- Settles O10: an idle interrupt context may issue its command, and whether the agenda says `resume` or a command of the
main context waits, the innermost latch is committed. -/
theorem handlerCommandsNestInsideOpenTransactions : Obligations.HandlerCommandsNestInsideOpenTransactions := by
  refine ⟨fun s k w din rest i hrefused hqueue hidle hdecode => ?_, fun i s t => runAlone_tx,
    fun s l rest q x hrefused hqueue htx hread => ?_, fun s l rest w din q x hrefused hqueue htx hread => ?_⟩
  · exact step_of_legal_command hrefused hqueue (mayIssue_irq (phase_eq_idle.1 hidle)) hdecode
  · exact ⟨_, step_commits_latch hrefused hqueue htx (Option.isSome_of_mem hread), committed_storesOnly _ _ _ _,
      committed_tx _ _ _ _⟩
  · have hstep := (step_of_waiting_command hrefused hqueue (mayIssue_main_of_latch htx)).trans
      (resumeTop_of_latch htx (Option.isSome_of_mem hread))
    exact ⟨_, hstep, committed_storesOnly _ _ _ _, committed_tx _ _ _ _, committed_queue _ _ _ _⟩

/-- A command that waits has an open latch before it, whose second step leaves one latch less and the agenda as it is. -/
theorem MachineInv.waiting_step {s : State} (hs : MachineInv s) {c : Ctx} {w : CmdWord} {din : Byte}
    {rest : List Event} (hrefused : s.refused = none) (hqueue : s.queue = .command c w din :: rest)
    (hmay : mayIssue s.tx c = false) :
    ∃ t, Machine.step s = .next t ∧ t.queue = s.queue ∧ t.refused = none ∧ t.tx.length + 1 = s.tx.length := by
  cases htx : s.tx with
  | nil => rw [htx] at hmay; cases hmay
  | cons l tail =>
    obtain ⟨haddr, -⟩ := hs.top_latchOk htx
    have hstep := (step_of_waiting_command hrefused hqueue hmay).trans (resumeTop_of_latch htx (hs.busMapped _ haddr))
    exact ⟨_, hstep, committed_queue _ _ _ _, (committed_refused _ _ _ _).trans hrefused, by simp⟩

theorem core_run_succ {s t : State} (h : step s = .next t) (k : Nat) :
    Sys2Proof.core.run (k + 1) s = Sys2Proof.core.run k t := by
  have hstep : Sys2Proof.core.step s = .next t := h
  simp only [Host.Core.run, hstep]

/-- By induction on the number of open latches. -/
theorem MachineInv.command_issued {s : State} (hs : MachineInv s) {c : Ctx} {w : CmdWord} {din : Byte}
    {rest : List Event} (hrefused : s.refused = none) (hqueue : s.queue = .command c w din :: rest) :
    ∃ k u, k ≤ s.tx.length ∧ Sys2Proof.core.run k s = .next u ∧ u.queue = s.queue ∧ u.refused = none ∧
      mayIssue u.tx c = true := by
  induction hn : s.tx.length generalizing s with
  | zero => exact ⟨0, s, Nat.le_refl 0, rfl, rfl, hrefused, by rw [List.length_eq_zero_iff.1 hn]; rfl⟩
  | succ n ih =>
    cases hmay : mayIssue s.tx c with
    | true => exact ⟨0, s, Nat.zero_le _, rfl, rfl, hrefused, hmay⟩
    | false =>
      obtain ⟨t, hstep, htq, htrefused, hlen⟩ := hs.waiting_step hrefused hqueue hmay
      obtain ⟨k, u, hk, hrun, huq, hurefused, humay⟩ := ih (hs.step hstep) htrefused (htq.trans hqueue) (by omega)
      exact ⟨k + 1, u, Nat.succ_le_succ hk, (core_run_succ hstep k).trans hrun, huq.trans htq, hurefused, humay⟩

/-- Settles O11: while the command waits each step closes one latch, and with none open it may be issued. -/
theorem waitingCommandIsTakenInBoundedSteps : Obligations.WaitingCommandIsTakenInBoundedSteps :=
  fun _ _ _ _ _ hs hrefused hqueue => hs.command_issued hrefused hqueue

/-- Settles O13: with the latches gone every context is Idle and may issue a command. -/
theorem blockResetEffect : Obligations.BlockResetEffect := by
  refine ⟨fun s rest hrefused hqueue => ?_, rfl, reset_bus_read⟩
  have hstep := step_of_reset hrefused hqueue
  refine ⟨hstep, fun t ht => ?_⟩
  obtain rfl : blockReset { s with queue := rest } = t := Host.Outcome.next.inj (hstep.symm.trans ht)
  exact ⟨phase_of_no_latch rfl, fun c w din q i hrest hdecode =>
    step_of_legal_command (s := blockReset { s with queue := rest }) hrefused hrest rfl hdecode⟩

end Sys2Proof.Machine
end

section
/-! SUPPORT. WRC, WR and SETPWM whole, in both P_ATOMIC modes (R83, R84, R104), and their second step alone (R30). -/

namespace Sys2Proof.Machine

/-- The write half, field by field. -/
theorem committed_eq (s : State) (a : Nat) (v : Byte) (d : Option Code) :
    committed s a v d = { s with
      bus := s.bus.write a v, scale := d.getD s.scale, response := none, index := s.index + 1,
      trace := (d.map Access.writeScale).toList ++ .writeReg a v :: s.trace } := by
  cases d <;> rfl

/-- With P_ATOMIC a command that stores is one step. -/
theorem exec_store_atomic {i : Instr} {s : State} {a : Nat} {old : Byte} (hp : s.params.wf = true)
    (hatomic : s.params.atomic = true) (hw : i.wf = true) (ha : storeAddr s.params i = some a)
    (hold : s.bus.read a = some old) :
    exec i s = .next (committed (s.log (.readReg a old)) a (storeByte s.din old i) (scaleOf i)) := by
  rw [exec_store ha hw]
  exact rmw_atomic (inPort_of_reg hp (storeAddr_mem _ _ _ ha)) hold hatomic

section
variable {i : Instr} {s : State} {a : Nat} {old : Byte} (hp : s.params.wf = true) (hw : i.wf = true)
  (ha : storeAddr s.params i = some a) (hold : s.bus.read a = some old)
include hp hw ha hold

/-- A command that stores, in one step: its byte, its SCALE write if it has one, its record and its end. -/
theorem exec_store_whole (hatomic : s.params.atomic = true) :
    ∃ t, exec i s = .next t ∧ storesOnly s t a (storeByte s.din old i) ∧
      t = { s with bus := t.bus, scale := (scaleOf i).getD s.scale, response := none, index := s.index + 1,
                   trace := ((scaleOf i).map Access.writeScale).toList ++
                     .writeReg a (storeByte s.din old i) :: .readReg a old :: s.trace } := by
  refine ⟨_, exec_store_atomic hp hatomic hw ha hold, committed_storesOnly (s.log (.readReg a old)) _ _ _, ?_⟩
  rw [committed_eq]
  rfl

/-- The same in two steps, the first of which opens the caller's latch and makes the read only. -/
theorem exec_store_whole_two_step (hatomic : s.params.atomic = false) :
    ∃ t u, exec i s = .next t ∧ resumeTop t = .next u ∧ storesOnly s u a (storeByte s.din old i) ∧
      t = { s with tx := ⟨s.ctx, a, storeByte s.din old i, scaleOf i⟩ :: s.tx, response := none,
                   trace := .readReg a old :: s.trace } ∧
      u = { s with bus := u.bus, scale := (scaleOf i).getD s.scale, response := none, index := s.index + 1,
                   trace := ((scaleOf i).map Access.writeScale).toList ++
                     .writeReg a (storeByte s.din old i) :: .readReg a old :: s.trace } := by
  refine ⟨_, _, exec_store_two_step hp hatomic hw ha hold,
    resumeTop_openLatch.2 ⟨Option.isSome_of_mem hold, rfl⟩, committed_storesOnly (s.log (.readReg a old)) _ _ _, rfl, ?_⟩
  rw [committed_eq]
  rfl

end

/-- Settles O15: WRC is a command that stores `pinUpdate` and has no SCALE write. -/
theorem wrcClearsOrSetsItsPinBit : Obligations.WrcClearsOrSetsItsPinBit := by
  refine ⟨fun p n v s old hn hp hold => ?_, fun w hop hbad => illegal_of_badFields hop ?_⟩
  · have hw : (Instr.wrc p n v).wf = true := decide_eq_true hn
    refine ⟨?_, exec_store_whole hp hw rfl hold, exec_store_whole_two_step hp hw rfl hold⟩
    cases v <;> rfl
  · rw [← slice_eq_extractLsb w _ _ (by decide), ← slice_eq_extractLsb w _ _ (by decide)] at hbad
    exact hbad.symm

theorem exec_wr_eq_exec_wrc (p : Port) (n : Nat) (s : State) :
    exec (.wr p n) s = exec (.wrc p n (decide (s.din ≠ 0))) s := rfl

/-- Settles O16: WR is WRC with the truth of DIN. -/
theorem wrClearsOrSetsItsPinBitByDin : Obligations.WrClearsOrSetsItsPinBitByDin := by
  refine ⟨fun p n s old hn hp hold => ⟨rfl, ?_⟩, exec_wr_eq_exec_wrc, fun w hop hbad => illegal_of_badFields hop ?_⟩
  · obtain ⟨hwrc, -⟩ := wrcClearsOrSetsItsPinBit
    obtain ⟨-, hwhole⟩ := hwrc p n (decide (s.din ≠ 0)) s old hn hp hold
    simpa only [decide_eq_true_eq, ← exec_wr_eq_exec_wrc] using hwhole
  · rw [← slice_eq_extractLsb w _ _ (by decide), ← slice_eq_extractLsb w _ _ (by decide)] at hbad
    exact hbad.symm

/-- Settles O18: SETPWM is a command that stores `csUpdate` at `target`, with a SCALE write for Timer A only. -/
theorem setpwmWritesTheDividerCode : Obligations.SetpwmWritesTheDividerCode := by
  refine ⟨fun tm f s old a hp ha hold => ?_, fun w hop hbad => illegal_of_badFields hop ?_⟩
  · have hstore : storeAddr s.params (.setpwm tm f) = some a := by rw [ha]; cases tm <;> rfl
    have hone := exec_store_whole hp rfl hstore hold
    have htwo := exec_store_whole_two_step hp rfl hstore hold
    cases tm <;> exact ⟨rfl, hone, htwo⟩
  · rw [← slice_eq_extractLsb w _ _ (by decide), ← slice_eq_extractLsb w _ _ (by decide),
      ← slice_eq_extractLsb w _ _ (by decide)] at hbad
    obtain hupper | hlower | hz := hbad
    · exact .inr (.inl hupper)
    · exact .inr (.inr hlower)
    · exact .inl hz

/-- Settles O21: the second step is the write half of the innermost latch. -/
theorem secondStepFrame : Obligations.SecondStepFrame := by
  intro s t l rest htx h
  obtain ⟨hnil, -⟩ | ⟨l', rest', htx', -, rfl⟩ := resumeTop_next h
  · rw [htx] at hnil; cases hnil
  · obtain ⟨rfl, rfl⟩ := List.cons.inj (htx.symm.trans htx')
    refine ⟨committed_storesOnly { s with tx := rest } _ _ _, ?_⟩
    rw [committed_eq]

/-! ### The latch between the two steps -/

/-- The first step sets the caller's latch, and no other context's. -/
theorem openLatch_latch_same (s : State) (a : Nat) (v : Byte) (d : Option Code) :
    (openLatch s a v d).latch s.ctx = some ⟨s.ctx, a, v, d⟩ := by
  simp [State.latch]

theorem openLatch_latch_other (s : State) (a : Nat) (v : Byte) (d : Option Code) {c : Ctx} (hc : c ≠ s.ctx) :
    (openLatch s a v d).latch c = s.latch c := by
  simp [State.latch, hc.symm]

theorem phase_of_latch {s : State} {c : Ctx} {l : Latch} (h : s.latch c = some l) : s.phase c = .readDone := by
  simp [State.phase, h]

/-- Settles O40: the first step is `openLatch`, from whose latch alone the second step is committed; and under P_ATOMIC the
invariant leaves no latch open. -/
theorem twoStepReadModifyWrite : Obligations.TwoStepReadModifyWrite := by
  refine ⟨fun i s a old hp hatomic hw ha hold => ?_, fun s t hs hatomic hstep => ?_⟩
  · have hlatch := openLatch_latch_same (s.log (.readReg a old)) a (storeByte s.din old i) (scaleOf i)
    refine ⟨_, exec_store_two_step hp hatomic hw ha hold, rfl, rfl, phase_of_latch hlatch, hlatch,
      fun c hc => openLatch_latch_other (s.log (.readReg a old)) _ _ _ hc, fun u htx hmapped => ?_⟩
    exact ⟨_, resumeTop_of_latch htx hmapped, committed_storesOnly { u with tx := s.tx } _ _ _, committed_tx _ _ _ _,
      committed_scale _ _ _ _⟩
  · exact (hs.step hstep).atomicIdle (step_params hstep ▸ hatomic)

end Sys2Proof.Machine
end

section
/-! SUPPORT. What a command leaves unchanged (R13, R24, R41), field by field. -/

namespace Sys2Proof.Machine

/-- Everything a command that goes on can do: a command that stores has read its byte, and has committed it or opened its
latch on it. -/
theorem exec_cases {i : Instr} {s t : State} (h : exec i s = .next t) :
    (∃ a old u, storeAddr s.params i = some a ∧ regRead s a = .ok (old, u) ∧
      (t = committed u a (storeByte s.din old i) (scaleOf i) ∨
        t = openLatch u a (storeByte s.din old i) (scaleOf i))) ∨
    (∃ p n v u, i = .rd p n ∧ regRead s (inAddr s.params p) = .ok (v, u) ∧
      t = complete u (some (rdResult s.params.rdWidth n v))) ∨
    (i = .msread ∧ t = complete (msRaw s).2 (some (.ms (msTransform s.scale (msRaw s).1)))) := by
  obtain ⟨-, ⟨a, ha, hrmw⟩ | hrest⟩ := exec_next h
  · obtain ⟨old, u, hread, ⟨-, -, ht⟩ | ⟨-, ht⟩⟩ := rmw_next hrmw
    · exact .inl ⟨a, old, u, ha, hread, .inl ht⟩
    · exact .inl ⟨a, old, u, ha, hread, .inr ht⟩
  · exact .inr hrest

/-- A read of a device register takes no draw. -/
theorem regRead_pins {s u : State} {a : Nat} {v : Byte} (hreg : inPort s.params a = none)
    (h : regRead s a = .ok (v, u)) : u.pins = s.pins ∧ u.pinDraws = s.pinDraws := by
  rw [regRead_reg hreg] at h
  obtain ⟨-, rfl⟩ := readCell_ok.1 h
  exact ⟨rfl, rfl⟩

section
variable {i : Instr} {s t : State} (h : exec i s = .next t)
include h

theorem exec_scale_frame (hi : ∀ f, i ≠ .setpwm .a f) : t.scale = s.scale := by
  obtain ⟨a, old, u, -, hread, rfl | rfl⟩ | ⟨p, n, v, u, -, hread, rfl⟩ | ⟨-, rfl⟩ := exec_cases h
  · obtain ⟨-, hscale, -⟩ := regRead_same hread
    rw [committed_scale, scaleOf_eq_none hi, hscale, Option.getD_none]
  · obtain ⟨-, hscale, -⟩ := regRead_same hread
    exact hscale
  · obtain ⟨-, hscale, -⟩ := regRead_same hread
    exact hscale
  · exact msRaw_scale s

theorem exec_pins_frame (hp : s.params.wf = true) (hi : ∀ p n, i ≠ .rd p n) :
    t.pins = s.pins ∧ t.pinDraws = s.pinDraws := by
  obtain ⟨a, old, u, ha, hread, ht⟩ | ⟨p, n, v, u, rfl, -, -⟩ | ⟨-, rfl⟩ := exec_cases h
  · have hu := regRead_pins (inPort_of_reg hp (storeAddr_mem _ _ _ ha)) hread
    obtain rfl | rfl := ht
    · rwa [committed_pins, committed_pinDraws]
    · exact hu
  · exact absurd rfl (hi p n)
  · exact ⟨msRaw_pins s, msRaw_pinDraws s⟩

theorem exec_ticks_frame (hi : i ≠ .msread) : t.ticks = s.ticks ∧ t.msDraws = s.msDraws := by
  obtain ⟨a, old, u, -, hread, rfl | rfl⟩ | ⟨p, n, v, u, -, hread, rfl⟩ | ⟨rfl, -⟩ := exec_cases h
  · rw [committed_ticks, committed_msDraws, regRead_frame hread]
    exact ⟨rfl, rfl⟩
  · rw [openLatch_ticks, openLatch_msDraws, regRead_frame hread]
    exact ⟨rfl, rfl⟩
  · rw [complete_ticks, complete_msDraws, regRead_frame hread]
    exact ⟨rfl, rfl⟩
  · exact absurd rfl hi

theorem exec_tx_frame :
    t.tx = s.tx ∨ ∃ l, l.ctx = s.ctx ∧ storeAddr s.params i = some l.addr ∧ t.tx = l :: s.tx := by
  obtain ⟨a, old, u, ha, hread, rfl | rfl⟩ | ⟨p, n, v, u, -, hread, rfl⟩ | ⟨-, rfl⟩ := exec_cases h
  · rw [committed_tx, regRead_frame hread]
    exact .inl rfl
  · rw [openLatch_tx, regRead_frame hread]
    exact .inr ⟨_, rfl, ha, rfl⟩
  · rw [complete_tx, regRead_frame hread]
    exact .inl rfl
  · exact .inl (msRaw_tx s)

theorem exec_bus_frame {b : Nat} (hb : storeAddr s.params i ≠ some b) : t.bus.read b = s.bus.read b := by
  obtain ⟨a, old, u, ha, hread, rfl | rfl⟩ | ⟨p, n, v, u, -, hread, rfl⟩ | ⟨-, rfl⟩ := exec_cases h
  · have hne : b ≠ a := fun e => hb (e ▸ ha)
    rw [committed_bus, Memory.read_write_other _ _ _ _ hne, regRead_frame hread]
  · rw [openLatch_bus, regRead_frame hread]
  · rw [complete_bus, regRead_frame hread]
  · rw [complete_bus, msRaw_bus]

end

/-- Settles O20: the parameters, the command view, and then one lemma for each field that only some commands change. -/
theorem commandFrame : Obligations.CommandFrame := by
  intro i s t h
  have hview := exec_commandView h
  simp only [State.commandView, CommandView.mk.injEq] at hview
  obtain ⟨hqueue, hrefused, hctx, hdin⟩ := hview
  exact ⟨exec_params h, hrefused, hqueue, hctx, hdin, exec_scale_frame h, exec_pins_frame h, exec_ticks_frame h,
    exec_tx_frame h, fun _ => exec_bus_frame h⟩

theorem runAlone_index {i : Instr} {s t : State} (h : runAlone i s = .next t) : t.index = s.index + 1 := by
  obtain ⟨-, ⟨a, old, u, -, hread, -, rfl⟩ | ⟨p, n, v, u, -, hread, rfl⟩ | ⟨-, rfl⟩⟩ := runAlone_next h
  · rw [committed_index, regRead_frame hread]
  · rw [complete_index, regRead_frame hread]
  · rw [complete_index, msRaw_index]

/-- Settles O52: every end of a command goes through `complete`, and `refuse` does not. -/
theorem indexCountsCompletedCommands : Obligations.IndexCountsCompletedCommands :=
  ⟨fun _ _ _ => runAlone_index, fun _ _ => rfl⟩

end Sys2Proof.Machine
end

section
/-! SUPPORT. The record of accesses over a step: the accesses it adds stay on the nine addresses (R41), and SCALE changes
with one of them (R13, R53). -/

namespace Sys2Proof.Machine

/-! ### The accesses a step adds -/

/-- What is new in the record keeps to the nine addresses and writes no input register. -/
def AddsAllowed (s t : State) : Prop := ∃ new, t.trace = new ++ s.trace ∧ ∀ e ∈ new, accessAllowed s.params e

theorem AddsAllowed.of_same {s t : State} (h : t.trace = s.trace) : AddsAllowed s t := ⟨[], h, by simp⟩

theorem AddsAllowed.of_cons {s t : State} {x : Access} (h : t.trace = x :: s.trace) (hx : accessAllowed s.params x) :
    AddsAllowed s t :=
  ⟨[x], h, by simpa using hx⟩

theorem exec_addsAllowed {i : Instr} {s t : State} (h : exec i s = .next t) : AddsAllowed s t := by
  obtain ⟨a, old, u, ha, hread, rfl | rfl⟩ | ⟨p, n, v, u, -, hread, rfl⟩ | ⟨-, rfl⟩ := exec_cases h
  · refine ⟨storeAccesses i a old (storeByte s.din old i), ?_, storeAccesses_allowed ha _ _⟩
    rw [committed_trace, regRead_frame hread]
    simp [storeAccesses]
  · refine AddsAllowed.of_cons (x := .readReg a old) ?_ (mem_addrs_of_reg (storeAddr_mem _ _ _ ha))
    rw [openLatch_trace, regRead_frame hread]
  · refine AddsAllowed.of_cons (x := .readReg (inAddr s.params p) v) ?_ (inAddr_mem_addrs _ p)
    rw [complete_trace, regRead_frame hread]
  · exact AddsAllowed.of_cons (msRaw_trace s) trivial

/-- The innermost latch points at a device register. -/
theorem MachineInv.resumeTop_addsAllowed {s t : State} (hs : MachineInv s) (h : Machine.resumeTop s = .next t) :
    AddsAllowed s t := by
  obtain ⟨-, rfl⟩ | ⟨l, rest, htx, -, rfl⟩ := resumeTop_next h
  · exact AddsAllowed.of_same rfl
  · obtain ⟨haddr, -⟩ := hs.top_latchOk htx
    refine ⟨(l.scale.map Access.writeScale).toList ++ [.writeReg l.addr l.value], by simp, fun e he => ?_⟩
    simp only [List.mem_append, Option.mem_toList, Option.map_eq_some_iff, List.mem_singleton] at he
    obtain ⟨d, -, rfl⟩ | rfl := he
    · trivial
    · exact haddr

theorem deviceWrite_addsAllowed {s t : State} {r : DeviceReg} {v : Byte} (h : deviceWrite s r v = .next t) :
    AddsAllowed s t := by
  obtain ⟨-, rfl⟩ := deviceWrite_next h
  exact AddsAllowed.of_cons rfl (regAddr_mem s.params r)

theorem MachineInv.step_addsAllowed {s t : State} (hs : MachineInv s) (h : Machine.step s = .next t) :
    AddsAllowed s t := by
  obtain ⟨-, hcase⟩ := step_next h
  obtain ⟨_, _, _, _, _, -, -, -, rfl⟩ | ⟨_, _, _, _, _, -, -, -, hexec⟩ | ⟨hresume, -⟩ | ⟨rest, -, hresume⟩ |
    ⟨_, _, _, -, hwrite⟩ | ⟨_, -, rfl⟩ := hcase
  · exact AddsAllowed.of_same rfl
  · exact (exec_addsAllowed hexec :)
  · exact hs.resumeTop_addsAllowed hresume
  · exact (hs.take rest s.ctx s.din).resumeTop_addsAllowed hresume
  · exact (deviceWrite_addsAllowed hwrite :)
  · exact AddsAllowed.of_same rfl

/-- Settles O49: each kind of step adds allowed accesses only. -/
theorem accessesStayOnTheNineAddresses : Obligations.AccessesStayOnTheNineAddresses := by
  intro s t hs h e he
  obtain ⟨new, htrace, hnew⟩ := hs.step_addsAllowed h
  rw [htrace] at he
  exact (List.mem_append.1 he).symm.imp_right (hnew e)

/-! ### The step that changes SCALE -/

/-- The last access of the step is one write of the new SCALE, after one register write and at most one read of that
register. -/
def ScaleWrittenWhole (s t : State) : Prop :=
  ∃ a v before, t.trace = .writeScale t.scale :: .writeReg a v :: before ∧
    (before = s.trace ∨ ∃ x, before = .readReg a x :: s.trace)

/-- A write half that changes SCALE has a SCALE write. -/
theorem committed_trace_of_scale_ne {s : State} {a : Nat} {v : Byte} {d : Option Code}
    (h : (committed s a v d).scale ≠ s.scale) :
    (committed s a v d).trace = .writeScale (committed s a v d).scale :: .writeReg a v :: s.trace := by
  cases d with
  | none => exact absurd (committed_scale s a v none) h
  | some d => simp

/-- The first of two steps changes no SCALE, nor do RD and MSREAD. -/
theorem exec_scaleWrittenWhole {i : Instr} {s t : State} (h : exec i s = .next t) (hne : t.scale ≠ s.scale) :
    ScaleWrittenWhole s t := by
  obtain ⟨a, old, u, -, hread, rfl | rfl⟩ | ⟨p, n, v, u, -, hread, rfl⟩ | ⟨-, rfl⟩ := exec_cases h
  · obtain ⟨-, hscale, -, -, -, -, -, -, -, -, -, -, htrace⟩ := regRead_same hread
    exact ⟨a, _, _, committed_trace_of_scale_ne (hscale ▸ hne), .inr ⟨old, htrace⟩⟩
  · obtain ⟨-, hscale, -⟩ := regRead_same hread
    exact absurd hscale hne
  · obtain ⟨-, hscale, -⟩ := regRead_same hread
    exact absurd hscale hne
  · exact absurd (msRaw_scale s) hne

theorem resumeTop_scaleWrittenWhole {s t : State} (h : resumeTop s = .next t) (hne : t.scale ≠ s.scale) :
    ScaleWrittenWhole s t := by
  obtain ⟨-, rfl⟩ | ⟨l, rest, -, -, rfl⟩ := resumeTop_next h
  · exact absurd rfl hne
  · exact ⟨l.addr, l.value, _, committed_trace_of_scale_ne hne, .inl rfl⟩

/-- Settles O32: of the steps that change SCALE all but the reset are write halves. -/
theorem scaleChangesInOneWholeWrite : Obligations.ScaleChangesInOneWholeWrite := by
  intro s t h hne
  obtain ⟨-, hcase⟩ := step_next h
  obtain ⟨_, _, _, _, _, -, -, -, rfl⟩ | ⟨_, _, _, _, _, -, -, -, hexec⟩ | ⟨hresume, -⟩ | ⟨_, -, hresume⟩ |
    ⟨_, _, _, -, hwrite⟩ | ⟨rest, hqueue, rfl⟩ := hcase
  · exact absurd rfl hne
  · exact .inr (exec_scaleWrittenWhole hexec hne :)
  · exact .inr (resumeTop_scaleWrittenWhole hresume hne)
  · exact .inr (resumeTop_scaleWrittenWhole hresume hne :)
  · obtain ⟨-, rfl⟩ := deviceWrite_next hwrite
    exact absurd rfl hne
  · exact .inl ⟨rfl, rest, hqueue⟩

end Sys2Proof.Machine
end

section
/-! SUPPORT. The two-step machine refines the one-step machine (20_memory.md section 3): how an undisturbed command ends does
not depend on P_ATOMIC. -/

namespace Sys2Proof.Machine

/-! ### How an undisturbed command ends -/

/-- The end of an undisturbed command, in either P_ATOMIC mode. -/
def EndsIn (i : Instr) (s t : State) : Prop :=
  i.wf = true ∧
    ((∃ a old u, storeAddr s.params i = some a ∧ regRead s a = .ok (old, u) ∧ (u.bus.read a).isSome = true ∧
        t = committed u a (storeByte s.din old i) (scaleOf i)) ∨
     (∃ p n v u, i = .rd p n ∧ regRead s (inAddr s.params p) = .ok (v, u) ∧
        t = complete u (some (rdResult s.params.rdWidth n v))) ∨
     (i = .msread ∧ t = complete (msRaw s).2 (some (.ms (msTransform s.scale (msRaw s).1)))))

/-- A command that opens no latch is complete after one step. -/
theorem runAlone_of_exec {i : Instr} {s t : State} (h : exec i s = .next t) (htx : t.tx = s.tx) :
    runAlone i s = .next t := by
  simp [runAlone, h, htx]

/-- The converse of `rmw_next` for a command that nothing disturbs. -/
theorem runAlone_store_of_regRead {i : Instr} {s u : State} {a : Nat} {old : Byte} (hw : i.wf = true)
    (ha : storeAddr s.params i = some a) (hread : regRead s a = .ok (old, u))
    (hmapped : (u.bus.read a).isSome = true) :
    runAlone i s = .next (committed u a (storeByte s.din old i) (scaleOf i)) := by
  obtain ⟨-, -, htx, -⟩ := regRead_same hread
  cases hatomic : s.params.atomic with
  | true =>
    refine runAlone_of_exec ?_ ((committed_tx _ _ _ _).trans htx)
    rw [exec_store ha hw]
    simpa [rmw, hread, hatomic] using commit_next.2 ⟨hmapped, rfl⟩
  | false =>
    have hexec : exec i s = .next (openLatch u a (storeByte s.din old i) (scaleOf i)) := by
      rw [exec_store ha hw]
      simp [rmw, hread, hatomic]
    simp only [runAlone, hexec, openLatch_tx, htx, List.length_cons, if_true]
    exact resumeTop_openLatch.2 ⟨hmapped, rfl⟩

theorem runAlone_iff_endsIn {i : Instr} {s t : State} : runAlone i s = .next t ↔ EndsIn i s t := by
  refine ⟨runAlone_next, ?_⟩
  rintro ⟨hw, ⟨a, old, u, ha, hread, hmapped, rfl⟩ | ⟨p, n, v, u, rfl, hread, rfl⟩ | ⟨rfl, rfl⟩⟩
  · exact runAlone_store_of_regRead hw ha hread hmapped
  · obtain ⟨-, -, htx, -⟩ := regRead_same hread
    exact runAlone_of_exec (exec_rd (of_decide_eq_true hw) hread) htx
  · exact runAlone_of_exec rfl (msRaw_tx s)

theorem EndsIn.params_eq {i : Instr} {s t : State} (h : EndsIn i s t) : t.params = s.params := by
  obtain ⟨-, ⟨a, old, u, -, hread, -, rfl⟩ | ⟨p, n, v, u, -, hread, rfl⟩ | ⟨-, rfl⟩⟩ := h
  · rw [committed_params, regRead_frame hread]
  · rw [complete_params, regRead_frame hread]
  · rw [complete_params, msRaw_params]

/-- With P_ATOMIC a command is complete after one step. -/
theorem exec_iff_endsIn_of_atomic {i : Instr} {s t : State} (hatomic : s.params.atomic = true) :
    exec i s = .next t ↔ EndsIn i s t := by
  rw [← runAlone_iff_endsIn]
  refine ⟨fun h => runAlone_of_exec h (exec_tx_of_atomic hatomic h), fun h => ?_⟩
  unfold runAlone at h
  split at h
  · next x hx =>
    rw [exec_tx_of_atomic hatomic hx, if_neg (Nat.ne_of_lt (Nat.lt_succ_self _))] at h
    rw [hx, h]
  · exact h

/-! ### P_ATOMIC as the only difference -/

/-- The state with another value of P_ATOMIC. -/
def State.setAtomic (s : State) (b : Bool) : State := { s with params := { s.params with atomic := b } }

theorem drawPins_setAtomic (s : State) (b : Bool) :
    drawPins (s.setAtomic b) = ((drawPins s).1, (drawPins s).2.setAtomic b) := by
  unfold drawPins State.setAtomic
  cases s.pins <;> rfl

theorem msRaw_setAtomic (s : State) (b : Bool) :
    msRaw (s.setAtomic b) = ((msRaw s).1, (msRaw s).2.setAtomic b) := by
  unfold msRaw State.setAtomic
  cases s.ticks <;> rfl

theorem readCell_setAtomic {s u : State} {from' a : Nat} {v : Byte} (b : Bool)
    (h : readCell s from' a = .ok (v, u)) : readCell (s.setAtomic b) from' a = .ok (v, u.setAtomic b) := by
  obtain ⟨hv, rfl⟩ := readCell_ok.1 h
  exact readCell_ok.2 ⟨hv, rfl⟩

theorem regRead_setAtomic {s u : State} {a : Nat} {v : Byte} (b : Bool) (h : regRead s a = .ok (v, u)) :
    regRead (s.setAtomic b) a = .ok (v, u.setAtomic b) := by
  cases hport : inPort s.params a with
  | none =>
    rw [regRead_reg hport] at h
    exact (regRead_reg (s := s.setAtomic b) hport).trans (readCell_setAtomic b h)
  | some q =>
    cases hloop : s.params.loopback with
    | true =>
      rw [regRead_loopback hport hloop] at h
      exact (regRead_loopback (s := s.setAtomic b) hport hloop).trans (readCell_setAtomic b h)
    | false =>
      rw [regRead_draw hport hloop] at h
      cases h
      rw [regRead_draw (s := s.setAtomic b) hport hloop, drawPins_setAtomic]
      rfl

theorem storeAddr_setAtomic (s : State) (b : Bool) (i : Instr) :
    storeAddr (s.setAtomic b).params i = storeAddr s.params i := by
  cases i <;> rfl

theorem committed_setAtomic (s : State) (a : Nat) (v : Byte) (d : Option Code) (b : Bool) :
    committed (s.setAtomic b) a v d = (committed s a v d).setAtomic b := by
  cases d <;> rfl

/-- No part of a command's end looks at P_ATOMIC. -/
theorem EndsIn.setAtomic {i : Instr} {s t : State} (h : EndsIn i s t) (b : Bool) :
    EndsIn i (s.setAtomic b) (t.setAtomic b) := by
  obtain ⟨hw, ⟨a, old, u, ha, hread, hmapped, rfl⟩ | ⟨p, n, v, u, rfl, hread, rfl⟩ | ⟨rfl, rfl⟩⟩ := h
  · exact ⟨hw, .inl ⟨a, old, u.setAtomic b, (storeAddr_setAtomic s b i).trans ha, regRead_setAtomic b hread, hmapped,
      (committed_setAtomic _ _ _ _ _).symm⟩⟩
  · exact ⟨hw, .inr (.inl ⟨p, n, v, u.setAtomic b, rfl, regRead_setAtomic b hread, rfl⟩)⟩
  · refine ⟨hw, .inr (.inr ⟨rfl, ?_⟩)⟩
    rw [msRaw_setAtomic]
    rfl

/-- Setting P_ATOMIC and setting it back changes nothing. -/
theorem setAtomic_back {s : State} {b : Bool} (h : s.params.atomic = b) (c : Bool) :
    (s.setAtomic c).setAtomic b = s := by
  subst h
  rfl

/-- Settles O43: both machines end a command as `EndsIn` says, which holds for one value of P_ATOMIC when it holds for the
other. -/
theorem undisturbedTwoStepsEqualOneStep : Obligations.UndisturbedTwoStepsEqualOneStep := by
  intro i s t hatomic
  have hone : ∀ u, exec i (s.setAtomic true) = .next u ↔ EndsIn i (s.setAtomic true) u :=
    fun _ => exec_iff_endsIn_of_atomic rfl
  rw [runAlone_iff_endsIn]
  constructor
  · intro h
    refine ⟨t.setAtomic true, (hone _).2 (h.setAtomic true), ?_⟩
    rw [← h.params_eq]
    rfl
  · rintro ⟨u, hu, rfl⟩
    have hend := (hone u).1 hu
    have hback : { u with params := s.params } = u.setAtomic false := by
      have hparams : s.params = { u.params with atomic := false } := by
        rw [hend.params_eq]
        exact (congrArg State.params (setAtomic_back hatomic true)).symm
      rw [hparams]
      rfl
    rw [hback]
    exact setAtomic_back hatomic true ▸ hend.setAtomic false

end Sys2Proof.Machine
end
